-- ==== Sys2Proof/Word.lean ====
section
/-! DEFINITION. The bit-vector types the spec treats as bits (10_state.md R21 to R25, 30_encoding.md R61, R70). Counts and
buffer indices are natural numbers (92_eei_decisions.md D4: "A model may take naturals"; log 11). -/

namespace Sys2Proof

/-- A 32-bit value, checksum or ring element (00_scope.md R8). -/
abbrev Word := BitVec 32

/-- One byte of a buffer (20_memory.md R40). -/
abbrev Byte := BitVec 8

/-- The 64-bit wide intermediate of the ring multiplication (10_state.md R25). -/
abbrev Wide := BitVec 64

/-- The 7 payload bits of a varint byte (30_encoding.md R61). -/
abbrev Payload := BitVec 7

end Sys2Proof
end

