-- ==== Sys2Proof/Config.lean ====
section
/-! DEFINITION. The build-time parameters of an instance and the free values (00_scope.md R8 to R15; 10_state.md R27). A
parameter the spec leaves to the builder is opaque here: no proof can see which build it is. The parameters the spec FIXES
(`ENC_CAP_MODE = report` R12, `DEC_LIMIT_BITS = 32` R13, `DEC_LONG_FORM = accept` R14, `DEC_STRICT_CANONICAL = false` R15) are
not fields: the meanings follow the fixed choice (log 21). -/

namespace Sys2Proof

/-- The three strategies of the CRC engine (00_scope.md R9). -/
inductive CrcVariant
  | bitwise
  | small16
  | large256
  deriving DecidableEq, Repr, Inhabited

/-- Bit steps one reduction step of the ring multiplier performs: "1, 4 or 8" (43_crc32c_ring_multiply.md R147). -/
def CrcVariant.bitsPerStep : CrcVariant → Nat
  | .bitwise => 1
  | .small16 => 4
  | .large256 => 8

namespace Config

/-- `CRC_VARIANT`, R9: left to the builder, so opaque. Unobservable (log 10). -/
opaque crcVariant : CrcVariant

/-- `ERR_UNIFY`, R10: left to the builder, so opaque (log 9). -/
opaque errUnify : Bool

/-- How far `SIZE_W` lies above its least value 3, R11: left to the builder, so opaque (log 11). -/
opaque sizeWExtra : Nat

/-- `SIZE_W`, R11: any width of at least 3 bits. -/
def sizeW : Nat := 3 + sizeWExtra

/-- FREE VALUE: the content of a byte the spec calls unspecified (40_varint_encoder.md R93, 70_reset_and_hazards.md R191). The
argument is the state's counter `freeCount`; nothing constrains the result (log 19). -/
opaque freeByte : Nat → Byte

/-- The reflected generator constant `POLY`, R8. -/
def poly : Word := 0x82F63B78#32

/-- The forward generator constant, R8. -/
def polyForward : Word := 0x1EDC6F41#32

/-- The conditioning mask, R8. -/
def mask : Word := 0xFFFFFFFF#32

/-- The accumulator of a fresh checksum, R8. -/
def freshAccumulator : Word := 0#32

end Config
end Sys2Proof
end

