-- ==== Sys2Proof/Machine/Crc.lean ====
section
/-! DEFINITION. The arithmetic of the CRC engine: the bit step, the byte step in its three ways, the tables, the carry-less
product and the reduction in its three ways (42_crc32c_core.md R121 to R128, 43_crc32c_ring_multiply.md R141 to R143). -/

namespace Sys2Proof.Machine

/-- `bitstep(c)` (R121). -/
def bitstep (c : Word) : Word := (c >>> 1) ^^^ (if c.getLsbD 0 then Config.poly else 0#32)

/-- `T16[n] = bitstep^4(zext_32(n))` (R126). -/
def t16 (n : BitVec 4) : Word := Nat.iterate bitstep 4 (n.setWidth 32)

/-- `T256[n] = bitstep^8(zext_32(n))` (R127). -/
def t256 (n : BitVec 8) : Word := Nat.iterate bitstep 8 (n.setWidth 32)

/-- `bytestep`, bitwise way (R124). -/
def bytestepBitwise (c : Word) (d : Byte) : Word := Nat.iterate bitstep 8 (c ^^^ d.setWidth 32)

/-- One lookup of the small table: `(c >> 4) ^ T16[(c ^ zext_32(n))[3:0]]` (R125). -/
def nibblestep (c : Word) (n : BitVec 4) : Word := (c >>> 4) ^^^ t16 ((c ^^^ n.setWidth 32).extractLsb' 0 4)

/-- `bytestep`, small-table way: low nibble, then high nibble (R125). -/
def bytestepSmall (c : Word) (d : Byte) : Word :=
  nibblestep (nibblestep c (d.extractLsb' 0 4)) (d.extractLsb' 4 4)

/-- `bytestep`, large-table way (R128). -/
def bytestepLarge (c : Word) (d : Byte) : Word := (c >>> 8) ^^^ t256 ((c ^^^ d.setWidth 32).extractLsb' 0 8)

/-- `bytestep` in the way a variant picks (R123). -/
def bytestepBy : CrcVariant → Word → Byte → Word
  | .bitwise => bytestepBitwise
  | .small16 => bytestepSmall
  | .large256 => bytestepLarge

/-- `bytestep`: "A model defines `bytestep` by rule R124" (R123; log 10). -/
def bytestep (c : Word) (d : Byte) : Word := bytestepBitwise c d

/-- Working value to checksum and back: the xor with all ones (R122). -/
def condition (v : Word) : Word := v ^^^ Config.mask

/-- The first `n` partial products of the carry-less product (R141). -/
def clmulUpTo (a b : Word) : Nat → Wide
  | 0 => 0#64
  | n + 1 => clmulUpTo a b n ^^^ (if b.getLsbD n then a.setWidth 64 <<< n else 0#64)

/-- `clmul(a, b)` (R141). -/
def clmul (a b : Word) : Wide := clmulUpTo a b 32

/-- The wide value before the reduction: `trunc_64(clmul(a, b) << 1)` (R142). -/
def wideProduct (a b : Word) : Wide := clmul a b <<< 1

/-- One reduction step in the way a variant picks: 1, 4 or 8 bit steps on the wide value (R143). -/
def reduceStep : CrcVariant → Wide → Wide
  | .bitwise, z => (z >>> 1) ^^^ (if z.getLsbD 0 then Config.poly.setWidth 64 else 0#64)
  | .small16, z => (z >>> 4) ^^^ (t16 (z.extractLsb' 0 4)).setWidth 64
  | .large256, z => (z >>> 8) ^^^ (t256 (z.extractLsb' 0 8)).setWidth 64

/-- `reduce(z)` in the way a variant picks: 32, 8 or 4 steps (R143). -/
def reduceBy (v : CrcVariant) (z : Wide) : Wide := Nat.iterate (reduceStep v) (32 / v.bitsPerStep) z

/-- `reduce(z)`: "A model defines `reduce` by the bitwise way" (R143; log 10). -/
def reduce (z : Wide) : Wide := reduceBy .bitwise z

/-- The low 32 bits of a wide value: `z[31:0]` (R142). -/
def lowWord (z : Wide) : Word := z.setWidth 32

end Sys2Proof.Machine
end

