-- ==== Sys2Proof/Syntax.lean ====
section
/-! DEFINITION. The operations of the block and the two code formats that name them: the START event with its 2-bit operation
code, and the varint byte (30_encoding.md R60, R61, R75, R78, R79; opcode_table.json). -/

namespace Sys2Proof

/-- The four units (00_scope.md R1, 60_exceptions.md R178). -/
inductive UnitId
  | venc
  | vdec
  | crcu
  | crcm
  deriving DecidableEq, Repr

/-- What the block performs, one constructor per row of opcode_table.json. A buffer is named by the host address of its first
byte (log 1). -/
inductive Instr
  /-- `VENC value, capacity, OUT` (R91). -/
  | venc (value : Word) (capacity out : Nat)
  /-- `VDEC size, IN` (R101). -/
  | vdec (size inp : Nat)
  /-- `CRCU acc_in, size, IN` (R122). -/
  | crcu (accIn : Word) (size inp : Nat)
  /-- `CRCM a, b` (R142). -/
  | crcm (a b : Word)
  /-- `CRC32C size, IN`, which stands for `CRCU 0, size, IN` (R79). -/
  | crc32c (size inp : Nat)
  /-- A continuation byte read by the decoder (R61, R106; log 13). -/
  | varintCont (p : Payload)
  /-- A terminal byte read by the decoder (R61, R106; log 13). -/
  | varintTerm (p : Payload)
  deriving DecidableEq, Repr

/-- A START event on the command port: the operation code and, beside it, the operands as whole registers (R75, 92 D2). A
field the named unit does not take is ignored. DESIGN CHOICE: every START comes through one command port that names its unit by
`cmd_op`; R75 leaves open whether an instance has one (log 23). -/
structure StartEvent where
  cmdOp : BitVec 2
  value : Word := 0
  capacity : Nat := 0
  size : Nat := 0
  accIn : Word := 0
  a : Word := 0
  b : Word := 0
  buffer : Nat := 0
  deriving DecidableEq, Repr

/-- What a piece of code is: a START event on the command port, or one byte of a varint sequence (R60). -/
inductive Code
  | start (e : StartEvent)
  | byte (d : Byte)
  deriving DecidableEq, Repr

end Sys2Proof
end

