-- ==== Sys2Proof/Machine/State.lean ====
section
/-! DEFINITION. Everything the spec gives the block, as plain data: the four units' registers (10_state.md R20 to R26), the
host memory their buffers lie in (20_memory.md R40), the host's pending moves (60_exceptions.md R181), and the reasons a step
can stop. A result register is an Option because the spec gives it the state "holds no value" (10_state.md R33, log 4). -/

namespace Sys2Proof.Machine

/-- Status codes (30_encoding.md R76). -/
inductive Status
  | ok
  | corrupt
  | truncated
  | capacity
  deriving DecidableEq, Repr

/-- `varint_encoder` (10_state.md R21). -/
structure VencUnit where
  value : Word := 0
  capacity : Nat := 0
  out : Nat := 0
  word : Word := 0
  i : Nat := 0
  bytesWritten : Option Nat := none
  status : Option Status := none
  busy : Bool := false
  deriving DecidableEq, Repr

/-- `varint_decoder` (10_state.md R22). -/
structure VdecUnit where
  size : Nat := 0
  inp : Nat := 0
  acc : Word := 0
  ovf : Bool := false
  i : Nat := 0
  value : Option Word := none
  bytesConsumed : Option Nat := none
  status : Option Status := none
  busy : Bool := false
  deriving DecidableEq, Repr

/-- `crc32c_core` (10_state.md R23). -/
structure CrcuUnit where
  accIn : Word := 0
  size : Nat := 0
  inp : Nat := 0
  crc : Word := 0
  i : Nat := 0
  accOut : Option Word := none
  status : Option Status := none
  busy : Bool := false
  deriving DecidableEq, Repr

/-- `crc32c_ring_multiply` (10_state.md R25). -/
structure CrcmUnit where
  a : Word := 0
  b : Word := 0
  z : Wide := 0
  k : BitVec 6 := 0
  product : Option Word := none
  status : Option Status := none
  busy : Bool := false
  deriving DecidableEq, Repr

/-- The result registers the host may read after DONE (60_exceptions.md R181, R184). -/
inductive ResultReg
  | vencStatus
  | vencBytesWritten
  | vdecStatus
  | vdecValue
  | vdecBytesConsumed
  | crcuStatus
  | crcuAccOut
  | crcmStatus
  | crcmProduct
  deriving DecidableEq, Repr

/-- What a host read gives. -/
inductive Reading
  | status (st : Status)
  | word (v : Word)
  | count (n : Nat)
  | byte (d : Byte)
  deriving DecidableEq, Repr

/-- What happens next: a move of the host, or the choice of the unit that makes its next step (log 5). -/
inductive Move
  /-- The host issues a START and nothing else moves until the DONE (95_test_vectors.md section 6). -/
  | call (e : StartEvent)
  /-- The host issues a START; the unit is left in flight (60_exceptions.md R181). -/
  | start (e : StartEvent)
  /-- The unit makes one step of its operation (R94, R106, R130, R147). -/
  | tick (u : UnitId)
  /-- The host reads a result register (60_exceptions.md R181). -/
  | readResult (r : ResultReg)
  /-- The host reads a byte of its own memory (60_exceptions.md R178). -/
  | load (a : Nat)
  /-- The host writes a byte of its own memory (60_exceptions.md R178). -/
  | store (a : Nat) (d : Byte)
  /-- Reset of the block (70_reset_and_hazards.md R190, R191). -/
  | reset
  deriving DecidableEq, Repr

/-- Host memory: the bytes that differ from what an unlisted address reads as, addresses rising (log 1, log 2). -/
abbrev Memory := List Host.Cell

/-- The block, its memory and what is going to happen to it. -/
structure State where
  venc : VencUnit := {}
  vdec : VdecUnit := {}
  crcu : CrcuUnit := {}
  crcm : CrcmUnit := {}
  mem : Memory := []
  agenda : List Move := []
  observed : Option Reading := none
  freeCount : Nat := 0
  deriving DecidableEq, Repr

/-- Reasons the machine stops with a fault. -/
inductive Fault
  /-- Raised by VENC when `capacity < L(value)` (60_exceptions.md R163); it carries the state after the operation's DONE, whose
  buffer bytes are free values (40_varint_encoder.md R93). Safe: nothing can be claimed of a run past it (log 7). -/
  | capacityViolation (after : State)
  /-- Raised by a host read of a result register that holds no value, or whose unit is busy (10_state.md R33,
  70_reset_and_hazards.md R197, 93 U5: "a read is a `fault` ... never a value"). Safe (log 16). -/
  | noValue (r : ResultReg)
  deriving DecidableEq, Repr

/-- Reasons the machine gives no meaning to what it is asked. -/
inductive Refusal
  /-- An operation that has no meaning yet, by its mnemonic. Safe. -/
  | notModelled (mnemonic : String)
  /-- START on a unit whose `busy` is 1: the host has no such move (60_exceptions.md R181, 93 U8). Safe (log 14). -/
  | startWhileBusy (u : UnitId)
  /-- A START, or a host access, that touches the buffer of an operation in flight against R53 (93 U7). Safe (log 15). -/
  | bufferConflict
  /-- A varint byte where no decode in flight waits for one (41_varint_decoder.md R106). Safe (log 13). -/
  | noByteDue
  deriving DecidableEq, Repr

/-- The outcomes of a step of this machine. -/
abbrev Result := Host.Outcome State Fault Refusal

/-- The state right after reset: every unit idle, no result held, nothing pending (10_state.md R32, 70_reset_and_hazards.md
R190); operand and working registers at the zero of log 3. -/
def State.reset : State := {}

/-- Replace the state of one unit or field. -/
def State.setVenc (s : State) (u : VencUnit) : State := { s with venc := u }
@[inherit_doc State.setVenc]
def State.setVdec (s : State) (u : VdecUnit) : State := { s with vdec := u }
@[inherit_doc State.setVenc]
def State.setCrcu (s : State) (u : CrcuUnit) : State := { s with crcu := u }
@[inherit_doc State.setVenc]
def State.setCrcm (s : State) (u : CrcmUnit) : State := { s with crcm := u }
@[inherit_doc State.setVenc]
def State.setMem (s : State) (m : Memory) : State := { s with mem := m }
@[inherit_doc State.setVenc]
def State.setAgenda (s : State) (g : List Move) : State := { s with agenda := g }
@[inherit_doc State.setVenc]
def State.setObserved (s : State) (r : Option Reading) : State := { s with observed := r }
@[inherit_doc State.setVenc]
def State.setFreeCount (s : State) (n : Nat) : State := { s with freeCount := n }

end Sys2Proof.Machine
end

