-- ==== Sys2Proof/Machine/Flags.lean ====
section
/-! DEFINITION. The block's flags and status codes: `status` and who writes which code, `busy`, and the continuation of an
error kind into a status (10_state.md R26, 30_encoding.md R76, 60_exceptions.md R160 to R163). The data path has no condition
codes. -/

namespace Sys2Proof.Machine

/-- The 2-bit code of a status (R76). -/
def statusCode : Status → BitVec 2
  | .ok => 0#2
  | .corrupt => 1#2
  | .truncated => 2#2
  | .capacity => 3#2

/-- The status of a 2-bit code: all four have a meaning (R77). -/
def statusOfCode (c : BitVec 2) : Status :=
  match c.toNat with
  | 0 => .ok
  | 1 => .corrupt
  | 2 => .truncated
  | _ => .capacity

/-- The three error kinds (R160). -/
inductive ErrorKind
  | corrupt
  | truncated
  | capacityViolation
  deriving DecidableEq, Repr

/-- The status with which an error kind is reported; Truncated is reported as CORRUPT in a build with `ERR_UNIFY = true`
(R161 to R163, 00_scope.md R10). -/
def reportedStatus : ErrorKind → Status
  | .corrupt => .corrupt
  | .truncated => if Config.errUnify then .corrupt else .truncated
  | .capacityViolation => .capacity

/-- The status codes a unit may write (R26, R76). -/
def mayWriteStatus : UnitId → Status → Bool
  | .venc, .ok => true
  | .venc, .capacity => true
  | .vdec, .ok => true
  | .vdec, .corrupt => true
  | .vdec, .truncated => true
  | .crcu, .ok => true
  | .crcm, .ok => true
  | _, _ => false

/-- The `busy` flag of a unit (R26). -/
def busyOf (u : UnitId) (s : State) : Bool :=
  match u with
  | .venc => s.venc.busy
  | .vdec => s.vdec.busy
  | .crcu => s.crcu.busy
  | .crcm => s.crcm.busy

/-- The `status` register of a unit (R26). -/
def statusOf (u : UnitId) (s : State) : Option Status :=
  match u with
  | .venc => s.venc.status
  | .vdec => s.vdec.status
  | .crcu => s.crcu.status
  | .crcm => s.crcm.status

end Sys2Proof.Machine
end

