-- ==== Sys2Proof/Machine/Ops.lean ====
section
/-! DEFINITION. The shared operations: reading and writing a byte of memory, the buffers of the operations in flight, START,
the way an error ends an operation, reset, and the host's accesses. -/

namespace Sys2Proof.Machine

/-! ### Memory -/

/-- What an address that is not listed reads as: the spec gives no content of a buffer the host has not written
(DESIGN CHOICE, log 2). -/
def unlistedByte : Byte := 0#8

/-- The byte at an address (20_memory.md R41). -/
def memRead : Memory → Nat → Byte
  | [], _ => unlistedByte
  | c :: m, a => if c.1 = a then c.2 else memRead m a

/-- Memory with no entry for an address. -/
def memErase (m : Memory) (a : Nat) : Memory := m.filter (fun c => c.1 != a)

/-- Memory with an entry put before the first higher address. -/
def memInsert : Memory → Nat → Byte → Memory
  | [], a, d => [(a, d)]
  | c :: m, a, d => if a < c.1 then (a, d) :: c :: m else c :: memInsert m a d

/-- Writes one byte (R42), keeping the canonical form: the value an unlisted address reads as is not listed. -/
def memWrite (m : Memory) (a : Nat) (d : Byte) : Memory :=
  if d = unlistedByte then memErase m a else memInsert (memErase m a) a d

/-- No entry at or below an address, addresses rising, no entry that an unlisted address would read as. -/
def memWfAbove : Option Nat → Memory → Bool
  | _, [] => true
  | lo, c :: m => (match lo with | none => true | some l => decide (l < c.1)) && c.2 != unlistedByte && memWfAbove (some c.1) m

/-- The canonical form of memory (log 2). -/
def Memory.wf (m : Memory) : Bool := memWfAbove none m

/-- Store one byte in the state's memory. -/
def storeByte (s : State) (a : Nat) (d : Byte) : State := s.setMem (memWrite s.mem a d)

/-- Gives `n` bytes from an address free values: each takes the next free byte (log 19). -/
def storeFree (base : Nat) : Nat → State → State
  | 0, s => s
  | n + 1, s =>
    let t := storeFree base n s
    (storeByte t (base + n) (Config.freeByte t.freeCount)).setFreeCount (t.freeCount + 1)

/-! ### Buffers of the operations in flight -/

/-- The buffer a unit's operation names: first address and number of bytes (R40, 60_exceptions.md R184). CRCM names none.
DESIGN CHOICE: memory has no end, so every buffer has the bytes its count asks for and BUF_SIZE (R186) always holds (log 24). -/
def bufferOf (u : UnitId) (s : State) : Nat × Nat :=
  match u with
  | .venc => (s.venc.out, s.venc.capacity)
  | .vdec => (s.vdec.inp, s.vdec.size)
  | .crcu => (s.crcu.inp, s.crcu.size)
  | .crcm => (0, 0)

/-- The address lies in the run of `n` bytes from `base`. -/
def inBuffer (base n a : Nat) : Bool := decide (base ≤ a) && decide (a < base + n)

/-- Two runs of bytes share an address. -/
def overlap (b m c n : Nat) : Bool := decide (0 < m) && decide (0 < n) && decide (b < c + n) && decide (c < b + m)

/-- All four units. -/
def allUnits : List UnitId := [.venc, .vdec, .crcu, .crcm]

/-- The run of bytes overlaps the buffer of an operation in flight on another unit (R53, R196). -/
def clashes (u : UnitId) (base n : Nat) (s : State) : Bool :=
  allUnits.any fun w => w != u && busyOf w s && overlap base n (bufferOf w s).1 (bufferOf w s).2

/-- The launch premises IDLE and BUF_STABLE (60_exceptions.md R186) hold for a START of the unit on the buffer. -/
def canStart (u : UnitId) (base n : Nat) (s : State) : Bool := !busyOf u s && !clashes u base n s

/-! ### START and the end of an operation -/

/-- Goes on from a next state; a fault or a refusal stays. -/
def andThen (r : Result) (f : State → Result) : Result :=
  match r with
  | .next s => f s
  | .fault e => .fault e
  | .refused e => .refused e

/-- START of a unit (60_exceptions.md R181): it is given no meaning on a busy unit (log 14) or on a buffer of another
operation in flight (log 15); otherwise the unit is in the started state. -/
def beginOp (u : UnitId) (base n : Nat) (s started : State) : Result :=
  if busyOf u s then .refused (.startWhileBusy u)
  else if clashes u base n s then .refused .bufferConflict
  else .next started

/-- An error ends the operation (60_exceptions.md R166, R167): `status` is written, `busy` cleared, the other result registers
hold no value, and nothing else happens. Corrupt and Truncated are results of VDEC, which wrote no memory; CapacityViolation is
a fault (R163) that carries the state after it, with `OUT[0 .. capacity-1]` at free values (40_varint_encoder.md R93, log 7).
There is no return from an error: the unit is idle (R168). -/
def endWithError (k : ErrorKind) (s : State) : Result :=
  match k with
  | .corrupt =>
    .next (s.setVdec { s.vdec with value := none, bytesConsumed := none, status := some (reportedStatus .corrupt), busy := false })
  | .truncated =>
    .next (s.setVdec { s.vdec with value := none, bytesConsumed := none, status := some (reportedStatus .truncated), busy := false })
  | .capacityViolation =>
    .fault (.capacityViolation ((storeFree s.venc.out s.venc.capacity s).setVenc
      { s.venc with bytesWritten := none, status := some (reportedStatus .capacityViolation), busy := false }))

/-! ### Reset -/

/-- Reset (70_reset_and_hazards.md R190, R191): every unit is idle and holds no result; of an abandoned VENC the bytes
`OUT[0 .. min(capacity, 5) - 1]` take free values (log 8); all other memory stays. -/
def resetBlock (s : State) : State :=
  let t := if s.venc.busy then storeFree s.venc.out (min s.venc.capacity 5) s else s
  { t with venc := State.reset.venc, vdec := State.reset.vdec, crcu := State.reset.crcu, crcm := State.reset.crcm }

/-! ### The host's accesses -/

/-- The content of a result register, if it holds a value. -/
def resultOf (r : ResultReg) (s : State) : Option Reading :=
  match r with
  | .vencStatus => s.venc.status.map .status
  | .vencBytesWritten => s.venc.bytesWritten.map .count
  | .vdecStatus => s.vdec.status.map .status
  | .vdecValue => s.vdec.value.map .word
  | .vdecBytesConsumed => s.vdec.bytesConsumed.map .count
  | .crcuStatus => s.crcu.status.map .status
  | .crcuAccOut => s.crcu.accOut.map .word
  | .crcmStatus => s.crcm.status.map .status
  | .crcmProduct => s.crcm.product.map .word

/-- The unit a result register belongs to. -/
def unitOfResult : ResultReg → UnitId
  | .vencStatus => .venc
  | .vencBytesWritten => .venc
  | .vdecStatus => .vdec
  | .vdecValue => .vdec
  | .vdecBytesConsumed => .vdec
  | .crcuStatus => .crcu
  | .crcuAccOut => .crcu
  | .crcmStatus => .crcm
  | .crcmProduct => .crcm

/-- The host reads a result register: it gets a value only after DONE and only where the register holds one. The spec makes the
other reads faults: "a model gives such a read no value (a fault or a refusal of the read), never zero" (10_state.md R33; also
70_reset_and_hazards.md R197, 93_implementation_defined.md U5; log 16). -/
def readResult (r : ResultReg) (s : State) : Result :=
  if busyOf (unitOfResult r) s then .fault (.noValue r)
  else match resultOf r s with
    | some v => .next (s.setObserved (some v))
    | none => .fault (.noValue r)

/-- The host reads a byte of its memory: not one of an output buffer in flight (20_memory.md R53). -/
def hostLoad (a : Nat) (s : State) : Result :=
  if s.venc.busy && inBuffer s.venc.out s.venc.capacity a then .refused .bufferConflict
  else .next (s.setObserved (some (.byte (memRead s.mem a))))

/-- The host writes a byte of its memory: not one of a buffer in flight (20_memory.md R53). -/
def hostStore (a : Nat) (d : Byte) (s : State) : Result :=
  if allUnits.any fun w => busyOf w s && inBuffer (bufferOf w s).1 (bufferOf w s).2 a then .refused .bufferConflict
  else .next (storeByte s a d)

end Sys2Proof.Machine
end

