-- ==== Sys2Proof/Machine/Crcm.lean ====
section
/-! DEFINITION. The operation CRCM of the unit `crc32c_ring_multiply` (43_crc32c_ring_multiply.md R142, R147). -/

namespace Sys2Proof.Machine

/-- The state after START (R147): operand registers as the host gave them, `z <- clmul(a, b) << 1`, `k <- 32`, `busy <- 1`. -/
def crcmStarted (a b : Word) (s : State) : State :=
  s.setCrcm { s.crcm with a := a, b := b, z := wideProduct a b, k := 32#6, busy := true }

/-- START of CRCM, which names no buffer. -/
def startCrcm (a b : Word) (s : State) : Result :=
  beginOp .crcm 0 0 s (crcmStarted a b s)

/-- The whole reduction (R142): no bit step is left. -/
def crcmReduceAll (s : State) : State :=
  s.setCrcm { s.crcm with z := reduce s.crcm.z, k := 0#6 }

/-- DONE (R142, R147): `product <- z[31:0]`, `status <- OK`. -/
def crcmDone (s : State) : State :=
  s.setCrcm { s.crcm with product := some (lowWord s.crcm.z), status := some .ok, busy := false }

/-- CRCM, the rule (R142). -/
def execCrcm (a b : Word) (s : State) : Result :=
  andThen (startCrcm a b s) (fun t => .next (crcmDone (crcmReduceAll t)))

/-- One reduction step of the build's variant (R147): 1, 4 or 8 bit steps, and `k` lower by as many. -/
def crcmReduceStep (s : State) : State :=
  s.setCrcm { s.crcm with
    z := reduceStep Config.crcVariant s.crcm.z
    k := s.crcm.k - BitVec.ofNat 6 Config.crcVariant.bitsPerStep }

/-- One step of a CRCM in flight (R147): DONE once `k = 0`. -/
def tickCrcm (s : State) : Result :=
  if s.crcm.k = 0#6 then .next (crcmDone s) else .next (crcmReduceStep s)

end Sys2Proof.Machine
end

