-- ==== Sys2Proof/WellFormed.lean ====
section
/-! DEFINITION. Which operations can be put on the command port: every count fits its `SIZE_W`-bit operand register
(00_scope.md R11). Every 32-bit operand and every payload is legal (R91, R101, R122, R142, R61). -/

namespace Sys2Proof

/-- The number fits a register of `SIZE_W` bits (R11). -/
def fitsSize (n : Nat) : Bool := decide (n < 2 ^ Config.sizeW)

/-- Every count of the operation fits its register. -/
def Instr.wellFormed : Instr → Bool
  | .venc _ capacity _ => fitsSize capacity
  | .vdec size _ => fitsSize size
  | .crcu _ size _ => fitsSize size
  | .crcm _ _ => true
  | .crc32c size _ => fitsSize size
  | .varintCont _ => true
  | .varintTerm _ => true

/-- Every count on the port fits its register. -/
def StartEvent.wellFormed (e : StartEvent) : Bool := fitsSize e.capacity && fitsSize e.size

end Sys2Proof
end

