-- ==== Sys2Proof/Decode.lean ====
section
/-! DEFINITION. Reading an operation from its code, and the code of an operation (30_encoding.md R61, R75, R77, R79). All four
operation codes and all 256 byte values are used, so decoding a code never fails; what can fail is taking a number of the
opcode table as a code. -/

namespace Sys2Proof

/-- The operation a START event names (R75). -/
def decodeStart (e : StartEvent) : Instr :=
  match e.cmdOp.toNat with
  | 0 => .venc e.value e.capacity e.buffer
  | 1 => .vdec e.size e.buffer
  | 2 => .crcu e.accIn e.size e.buffer
  | _ => .crcm e.a e.b

/-- The continuation flag, bit 7 of a varint byte (R61). -/
def contFlag (d : Byte) : Bool := d.getLsbD 7

/-- The payload, bits 6:0 of a varint byte (R61). -/
def payloadOf (d : Byte) : Payload := d.extractLsb' 0 7

/-- The varint byte with a given flag and payload (R61). -/
def varintByte (c : Bool) (p : Payload) : Byte := (BitVec.ofBool c) ++ p

/-- What the decoder reads a buffer byte as (R61): every byte is a continuation or a terminal byte. -/
def decodeByte (d : Byte) : Instr :=
  if contFlag d then .varintCont (payloadOf d) else .varintTerm (payloadOf d)

/-- Decoding of either format. -/
def decode : Code → Instr
  | .start e => decodeStart e
  | .byte d => decodeByte d

/-- The code of an operation (R61, R75); `CRC32C` has the code of `CRCU` with a fresh accumulator (R79). -/
def encode : Instr → Code
  | .venc value capacity out => .start { cmdOp := 0#2, value := value, capacity := capacity, buffer := out }
  | .vdec size inp => .start { cmdOp := 1#2, size := size, buffer := inp }
  | .crcu accIn size inp => .start { cmdOp := 2#2, accIn := accIn, size := size, buffer := inp }
  | .crcm a b => .start { cmdOp := 3#2, a := a, b := b }
  | .crc32c size inp => .start { cmdOp := 2#2, accIn := Config.freshAccumulator, size := size, buffer := inp }
  | .varintCont p => .byte (varintByte true p)
  | .varintTerm p => .byte (varintByte false p)

/-- The core operation an operation stands for: itself, but for the pseudo-operation (R79). -/
def Instr.core : Instr → Instr
  | .crc32c size inp => .crcu Config.freshAccumulator size inp
  | i => i

/-- Why a number of the opcode table is no code. -/
inductive DecodeError
  /-- No code has this many bits: the spec has a 2-bit format and an 8-bit format only (R60). -/
  | noFormat
  /-- The number has more bits than were given. -/
  | tooWide
  deriving DecidableEq, Repr

/-- The code that `nbits` bits of the opcode table with value `w` stand for. The spec has two formats (R60), the 2-bit operation
code and the 8-bit varint byte, and any other number of bits is refused. DESIGN CHOICE: in 8 bits the values 0 to 3 are read as
operation codes and the others as varint bytes (log 12). An operand word has no bits in the table, so it is 0. -/
def tableCode (nbits w : Nat) : Except DecodeError Code :=
  if nbits ≠ 2 ∧ nbits ≠ 8 then .error .noFormat
  else if 2 ^ nbits ≤ w then .error .tooWide
  else if w < 4 then .ok (.start { cmdOp := BitVec.ofNat 2 w })
  else .ok (.byte (BitVec.ofNat 8 w))

/-- The operation the decoder reads from an opcode-table row's bits. -/
def decodeTableWord (nbits w : Nat) : Option Instr :=
  match tableCode nbits w with
  | .ok c => some (decode c)
  | .error _ => none

end Sys2Proof
end

