-- ==== Sys2Proof/Machine/Operands.lean ====
section
/-! DEFINITION. The one operand form that reaches memory: a buffer named at START and a byte index into it (20_memory.md R40 to
R42), and the fields of a value that a byte index selects (30_encoding.md R63, R68). -/

namespace Sys2Proof.Machine

/-- The host address of a buffer's byte (R40; log 1). -/
def byteAddress (base i : Nat) : Nat := base + i

/-- `MemRead(i, 1)` in the buffer at `base` (R41). -/
def readIndex (s : State) (base i : Nat) : Byte := memRead s.mem (byteAddress base i)

/-- `MemWrite(i, 1, d)` in the buffer at `base` (R42). -/
def writeIndex (s : State) (base i : Nat) (d : Byte) : State := storeByte s (byteAddress base i) d

/-- The low group of a value: `word & 0x7F` (R68). -/
def lowGroup (w : Word) : Payload := w.extractLsb' 0 7

/-- The byte VENC writes for what is left of the value: its low group, with the flag set when more is left after the shift
(R68, 40_varint_encoder.md R91). -/
def nextVarintByte (w : Word) : Byte := varintByte ((w >>> 7) != 0#32) (lowGroup w)

/-- `acc` after the payload at index `i` (41_varint_decoder.md R101): bits 7i+6 .. 7i for i up to 3, bits 31 .. 28 at index 4,
nothing above. -/
def gatherAcc (i : Nat) (acc : Word) (p : Payload) : Word :=
  if i ≤ 3 then acc ||| (p.setWidth 32 <<< (7 * i))
  else if i = 4 then acc ||| ((p.extractLsb' 0 4).setWidth 32 <<< 28)
  else acc

/-- `ovf` after the payload at index `i` (R101): set, and never cleared, by a payload bit of weight 2^32 or more. -/
def gatherOvf (i : Nat) (ovf : Bool) (p : Payload) : Bool :=
  if i ≤ 3 then ovf
  else if i = 4 then ovf || (p.extractLsb' 4 3 != 0#3)
  else ovf || (p != 0#7)

end Sys2Proof.Machine
end

