-- ==== Sys2Proof/Machine/Crcu.lean ====
section
/-! DEFINITION. The operation CRCU of the unit `crc32c_core` (42_crc32c_core.md R122, R130) and the pseudo-operation CRC32C
(30_encoding.md R79). -/

namespace Sys2Proof.Machine

/-- The state after START (R130): operand registers as the host gave them, `crc <- acc_in ^ 0xFFFFFFFF`, `i <- 0`,
`busy <- 1`. -/
def crcuStarted (accIn : Word) (size inp : Nat) (s : State) : State :=
  s.setCrcu { s.crcu with accIn := accIn, size := size, inp := inp, crc := condition accIn, i := 0, busy := true }

/-- START of CRCU. -/
def startCrcu (accIn : Word) (size inp : Nat) (s : State) : Result :=
  beginOp .crcu inp size s (crcuStarted accIn size inp s)

/-- The loop body of R122, one read step of R130. -/
def crcuRead (s : State) : State :=
  s.setCrcu { s.crcu with crc := bytestep s.crcu.crc (readIndex s s.crcu.inp s.crcu.i), i := s.crcu.i + 1 }

/-- DONE (R122, R130): `acc_out <- crc ^ 0xFFFFFFFF`, `status <- OK`. -/
def crcuDone (s : State) : State :=
  s.setCrcu { s.crcu with accOut := some (condition s.crcu.crc), status := some .ok, busy := false }

/-- The loop of R122 with `n` bytes of the buffer left. -/
def crcuLoop : Nat → State → State
  | 0, s => crcuDone s
  | n + 1, s => crcuLoop n (crcuRead s)

/-- CRCU, the rule (R122). -/
def execCrcu (accIn : Word) (size inp : Nat) (s : State) : Result :=
  andThen (startCrcu accIn size inp s) (fun t => .next (crcuLoop size t))

/-- CRC32C: CRCU with a fresh accumulator (R79). -/
def execCrc32c (size inp : Nat) (s : State) : Result :=
  execCrcu Config.freshAccumulator size inp s

/-- One step of a CRCU in flight (R130). -/
def tickCrcu (s : State) : Result :=
  if s.crcu.i < s.crcu.size then .next (crcuRead s) else .next (crcuDone s)

end Sys2Proof.Machine
end

