-- ==== Sys2Proof/Machine/Vdec.lean ====
section
/-! DEFINITION. The operation VDEC of the unit `varint_decoder`, and the two varint byte forms as the step it makes on reading
one (41_varint_decoder.md R101 to R107, 30_encoding.md R61). -/

namespace Sys2Proof.Machine

/-- The state after START (R106): operand registers as the host gave them, `acc <- 0`, `ovf <- 0`, `i <- 0`, `busy <- 1`. -/
def vdecStarted (size inp : Nat) (s : State) : State :=
  s.setVdec { s.vdec with size := size, inp := inp, acc := 0#32, ovf := false, i := 0, busy := true }

/-- START of VDEC. -/
def startVdec (size inp : Nat) (s : State) : Result :=
  beginOp .vdec inp size s (vdecStarted size inp s)

/-- `acc` and `ovf` updated with the payload at index `i` (R101). -/
def vdecGather (p : Payload) (s : State) : State :=
  s.setVdec { s.vdec with acc := gatherAcc s.vdec.i s.vdec.acc p, ovf := gatherOvf s.vdec.i s.vdec.ovf p }

/-- The step on a continuation byte: gather its payload and go to the next index (R101, R106). -/
def vdecContinue (p : Payload) (s : State) : State :=
  let t := vdecGather p s
  t.setVdec { t.vdec with i := t.vdec.i + 1 }

/-- DONE with status OK (R101): the terminal byte stood at index `i`. -/
def vdecDone (s : State) : State :=
  s.setVdec { s.vdec with value := some s.vdec.acc, bytesConsumed := some (s.vdec.i + 1), status := some .ok, busy := false }

/-- The step on a terminal byte: gather its payload, then the overflow check (R101, R104) and the end of the operation. -/
def vdecTerminate (p : Payload) (s : State) : Result :=
  let t := vdecGather p s
  if t.vdec.ovf then endWithError .corrupt t else .next (vdecDone t)

/-- The loop of R101 with `n` bytes of the buffer left. -/
def vdecLoop : Nat → State → Result
  | 0, s => endWithError .truncated s
  | n + 1, s =>
    let d := readIndex s s.vdec.inp s.vdec.i
    if contFlag d then vdecLoop n (vdecContinue (payloadOf d) s) else vdecTerminate (payloadOf d) s

/-- VDEC, the rule (R101). -/
def execVdec (size inp : Nat) (s : State) : Result :=
  andThen (startVdec size inp s) (vdecLoop size)

/-- A decode in flight waits for its next byte: the buffer is not used up (R101). -/
def byteDue (s : State) : Bool := s.vdec.busy && decide (s.vdec.i < s.vdec.size)

/-- A continuation byte arrives at the decoder (R61, R106; log 13). -/
def execVarintCont (p : Payload) (s : State) : Result :=
  if byteDue s then .next (vdecContinue p s) else .refused .noByteDue

/-- A terminal byte arrives at the decoder (R61, R106; log 13). -/
def execVarintTerm (p : Payload) (s : State) : Result :=
  if byteDue s then vdecTerminate p s else .refused .noByteDue

end Sys2Proof.Machine
end

