-- ==== Sys2Proof/Machine/Venc.lean ====
section
/-! DEFINITION. The operation VENC of the unit `varint_encoder` (40_varint_encoder.md R91 to R94): START, the loop body, DONE,
the whole operation, and one step of an operation in flight. -/

namespace Sys2Proof.Machine

/-- The state after START (R94): operand registers as the host gave them, `word <- value`, `i <- 0`, `busy <- 1`. -/
def vencStarted (value : Word) (capacity out : Nat) (s : State) : State :=
  s.setVenc { s.venc with value := value, capacity := capacity, out := out, word := value, i := 0, busy := true }

/-- START of VENC. -/
def startVenc (value : Word) (capacity out : Nat) (s : State) : Result :=
  beginOp .venc out capacity s (vencStarted value capacity out s)

/-- The loop body of R91, one write step of R94: write the next byte, shift the value, count the byte. -/
def vencWrite (s : State) : State :=
  (writeIndex s s.venc.out s.venc.i (nextVarintByte s.venc.word)).setVenc
    { s.venc with word := s.venc.word >>> 7, i := s.venc.i + 1 }

/-- DONE with status OK (R91): the terminal byte has been written at index `i - 1`. -/
def vencDone (s : State) : State :=
  s.setVenc { s.venc with bytesWritten := some s.venc.i, status := some .ok, busy := false }

/-- The loop of R91 with `n` bytes of the buffer left. -/
def vencLoop : Nat → State → Result
  | 0, s => endWithError .capacityViolation s
  | n + 1, s =>
    let t := vencWrite s
    if t.venc.word = 0#32 then .next (vencDone t) else vencLoop n t

/-- VENC, the rule (R91). -/
def execVenc (value : Word) (capacity out : Nat) (s : State) : Result :=
  andThen (startVenc value capacity out s) (vencLoop capacity)

/-- One step of a VENC in flight (R94): DONE once the terminal byte is written, the error when the buffer is used up, a write
step otherwise. -/
def tickVenc (s : State) : Result :=
  if 0 < s.venc.i ∧ s.venc.word = 0#32 then .next (vencDone s)
  else if s.venc.i < s.venc.capacity then .next (vencWrite s)
  else endWithError .capacityViolation s

end Sys2Proof.Machine
end

