-- ==== Sys2Proof/Machine/Fetch.lean ====
section
/-! DEFINITION. What the next step is: the oldest pending move, or, with none pending, the step of a unit in flight
(60_exceptions.md R178, R181, R185; log 5, log 6). An operation is decoded here, from the START event on the command port or
from the byte VDEC reads, and handed on to be executed. -/

namespace Sys2Proof.Machine

/-- What a step comes to: an operation to execute in a state, or an outcome that involves no decoding. -/
inductive Action
  | run (i : Instr) (s : State)
  | settled (r : Result)
  deriving Repr

/-- START alone of the operation a START event names (R75, R181): the unit is left in flight. A START event never names a
varint byte. -/
def startOnly (i : Instr) (s : State) : Result :=
  match i with
  | .venc value capacity out => startVenc value capacity out s
  | .vdec size inp => startVdec size inp s
  | .crcu accIn size inp => startCrcu accIn size inp s
  | .crcm a b => startCrcm a b s
  | .crc32c size inp => startCrcu Config.freshAccumulator size inp s
  | .varintCont _ => .refused .noByteDue
  | .varintTerm _ => .refused .noByteDue

/-- One step of a unit (R94, R106, R130, R147). VDEC reads the next byte of its buffer and executes what the byte decodes to, or
ends Truncated when the buffer is used up. An idle unit has no operation (R180) and nothing changes. -/
def tickAction (u : UnitId) (s : State) : Action :=
  if busyOf u s then
    match u with
    | .venc => .settled (tickVenc s)
    | .vdec => if byteDue s then .run (decodeByte (readIndex s s.vdec.inp s.vdec.i)) s else .settled (endWithError .truncated s)
    | .crcu => .settled (tickCrcu s)
    | .crcm => .settled (tickCrcm s)
  else .settled (.next s)

/-- The first unit in flight, in the order of `cmd_op` (log 6). -/
def firstBusy (s : State) : Option UnitId := allUnits.find? fun u => busyOf u s

/-- What a move of the agenda comes to. -/
def moveAction (v : Move) (s : State) : Action :=
  match v with
  | .call e => .run (decodeStart e) s
  | .start e => .settled (startOnly (decodeStart e) s)
  | .tick u => tickAction u s
  | .readResult r => .settled (readResult r s)
  | .load a => .settled (hostLoad a s)
  | .store a d => .settled (hostStore a d s)
  | .reset => .settled (.next (resetBlock s))

/-- What the next step is: the oldest move, taken off the agenda; with none pending a unit in flight steps, and with none in
flight nothing runs (70_reset_and_hazards.md R190). -/
def fetch (s : State) : Action :=
  match s.agenda with
  | v :: rest => moveAction v (s.setAgenda rest)
  | [] =>
    match firstBusy s with
    | some u => tickAction u s
    | none => .settled (.next s)

/-- The state in which the very next step executes what a code decodes to (log 20): a START event is the oldest move; a varint
byte is the next byte of a decode in flight, whose step is the oldest move. -/
def placeCode (c : Code) (s : State) : State :=
  match c with
  | .start e => s.setAgenda (.call e :: s.agenda)
  | .byte d =>
    ((writeIndex s s.vdec.inp s.vdec.i d).setVdec
      { s.vdec with size := max s.vdec.size (s.vdec.i + 1), busy := true }).setAgenda (.tick .vdec :: s.agenda)

/-- The state in which the very next step executes the operation of an opcode-table row's bits. -/
def placeTableWord (s : State) (nbits w : Nat) : State :=
  match tableCode nbits w with
  | .ok c => placeCode c s
  | .error _ => s

end Sys2Proof.Machine
end

