-- ==== Sys2Proof/Machine/Dispatch.lean ====
section
/-! DEFINITION. One arm per operation: the meaning it has. -/

namespace Sys2Proof.Machine

def exec (i : Instr) (s : State) : Host.Outcome State Fault Refusal :=
  match i with
  | .venc value capacity out => Sys2Proof.Machine.execVenc value capacity out s
  | .vdec size inp => Sys2Proof.Machine.execVdec size inp s
  | .crcu accIn size inp => Sys2Proof.Machine.execCrcu accIn size inp s
  | .crcm a b => Sys2Proof.Machine.execCrcm a b s
  | .crc32c size inp => Sys2Proof.Machine.execCrc32c size inp s
  | .varintCont p => Sys2Proof.Machine.execVarintCont p s
  | .varintTerm p => Sys2Proof.Machine.execVarintTerm p s

end Sys2Proof.Machine
end

