-- ==== Sys2Proof/Machine/Step.lean ====
section
/-! DEFINITION. One step of the machine: fetch what is next and execute it. -/

namespace Sys2Proof.Machine

/-- Executes a fetched operation; an outcome that needed no decoding stands. -/
def perform : Action → Host.Outcome State Fault Refusal
  | .run i s => exec i s
  | .settled r => r

/-- One step of one unit (60_exceptions.md R178). -/
def tick (u : UnitId) (s : State) : Host.Outcome State Fault Refusal := perform (tickAction u s)

/-- One step of the machine. -/
def step (s : State) : Host.Outcome State Fault Refusal := perform (fetch s)

/-- The state in which the very next step runs the operation of an opcode-table row's bits (log 20). -/
def State.withFetchWord (s : State) (nbits w : Nat) : State := placeTableWord s nbits w

end Sys2Proof.Machine
end

