-- ==== Sys2Proof/Laws/PerInstr.lean ====
section
/-! SUPPORT. Statements made of every operation as syntax, one lemma per constructor: what its code decodes to. -/

namespace Sys2Proof

/-- The payload of a varint byte put together from a flag and a payload (R61). -/
theorem payloadOf_varintByte (c : Bool) (p : Payload) : payloadOf (varintByte c p) = p := by
  apply BitVec.eq_of_getLsbD_eq
  intro i hi
  simp only [payloadOf, varintByte, BitVec.getLsbD_extractLsb', BitVec.getLsbD_append]
  simp [hi]

/-- The flag of a varint byte put together from a flag and a payload (R61). -/
theorem contFlag_varintByte (c : Bool) (p : Payload) : contFlag (varintByte c p) = c := by
  simp only [contFlag, varintByte, BitVec.getLsbD_append]
  cases c <;> rfl

namespace Laws.RoundTrip

/-- A well-formed operation's code decodes to the operation it stands for, which is well-formed. -/
def Statement (i : Instr) : Prop := i.wellFormed = true → decode (encode i) = i.core ∧ (decode (encode i)).wellFormed = true

theorem venc (value : Word) (capacity out : Nat) : Statement (.venc value capacity out) := fun h => ⟨rfl, h⟩
theorem vdec (size inp : Nat) : Statement (.vdec size inp) := fun h => ⟨rfl, h⟩
theorem crcu (accIn : Word) (size inp : Nat) : Statement (.crcu accIn size inp) := fun h => ⟨rfl, h⟩
theorem crcm (a b : Word) : Statement (.crcm a b) := fun h => ⟨rfl, h⟩
theorem crc32c (size inp : Nat) : Statement (.crc32c size inp) := fun h => ⟨rfl, h⟩

theorem varintCont (p : Payload) : Statement (.varintCont p) := by
  intro _
  simp [decode, encode, decodeByte, contFlag_varintByte, payloadOf_varintByte, Instr.core, Instr.wellFormed]

theorem varintTerm (p : Payload) : Statement (.varintTerm p) := by
  intro _
  simp [decode, encode, decodeByte, contFlag_varintByte, payloadOf_varintByte, Instr.core, Instr.wellFormed]

end Laws.RoundTrip
end Sys2Proof
end

