-- ==== Sys2Proof/Machine/Formats.lean ====
section
/-! DEFINITION. The closed forms of the data formats, in which statements about the operations are made: the canonical varint of
a value, the magnitude a buffer spells, the checksum of a byte run, the ring product (30_encoding.md R62 to R64,
42_crc32c_core.md R122, 43_crc32c_ring_multiply.md R142, R148). No step of the machine uses them. -/

namespace Sys2Proof.Machine

/-- `bitlength(v)` (00_scope.md R17). -/
def bitLength (v : Word) : Nat := if v = 0#32 then 0 else Nat.log2 v.toNat + 1

/-- `L(v) = max(1, ceil(bitlength(v) / 7))` (R64). -/
def canonicalLength (v : Word) : Nat := max 1 ((bitLength v + 6) / 7)

/-- Group `k` of a value: `(v >> 7k) & 0x7F` (R68). -/
def groupOf (v : Word) (k : Nat) : Payload := (v >>> (7 * k)).extractLsb' 0 7

/-- Byte `k` of the canonical sequence of a value (R64). -/
def canonicalByte (v : Word) (k : Nat) : Byte := varintByte (decide (k < canonicalLength v - 1)) (groupOf v k)

/-- The bytes of memory from an address, index 0 first. -/
def bytesAt (m : Memory) (base n : Nat) : List Byte := (List.range n).map fun k => memRead m (byteAddress base k)

/-- The magnitude the first `n` bytes of a buffer spell, of unlimited width (R63). -/
def magnitude (m : Memory) (base n : Nat) : Nat :=
  ((List.range n).map fun k => (payloadOf (memRead m (byteAddress base k))).toNat * 2 ^ (7 * k)).sum

/-- The first terminal byte of the buffer stands at index `n` (R62). -/
def firstTerminal (m : Memory) (base n : Nat) : Prop :=
  (∀ k < n, contFlag (memRead m (byteAddress base k)) = true) ∧ contFlag (memRead m (byteAddress base n)) = false

/-- The working value after a run of bytes (R122). -/
def crcAfter (c : Word) (ds : List Byte) : Word := ds.foldl bytestep c

/-- The checksum of a run of bytes from an accumulator (R122). -/
def checksum (acc : Word) (ds : List Byte) : Word := condition (crcAfter (condition acc) ds)

/-- The ring product of two elements (R142). -/
def ringProduct (a b : Word) : Word := lowWord (reduce (wideProduct a b))

/-- The ring element `x^(8n) mod G` (R148): `x^8` is `0x00800000`. -/
def zeroBytesFactor : Nat → Word
  | 0 => 0x80000000#32
  | n + 1 => ringProduct (zeroBytesFactor n) 0x00800000#32

end Sys2Proof.Machine
end

