-- ==== Sys2Proof/Safety.lean ====
section
/-! DEFINITION. What claims are made in: repeated steps of a unit, the end of a run (60_exceptions.md R185), the launch premises
(R186), and the invariant that every step of the machine keeps. -/

namespace Sys2Proof.Machine

/-- `n` steps of one unit, stopping at a fault or a refusal. -/
def tickTimes (u : UnitId) : Nat → State → Result
  | 0, s => .next s
  | n + 1, s => andThen (tick u s) (tickTimes u n)

/-- The run has ended: every unit is idle and the host issues nothing further (R185). -/
def runEnded (s : State) : Bool := allUnits.all (fun u => !busyOf u s) && s.agenda.isEmpty

/-- The unit an operation runs on (30_encoding.md R75, R79); a varint byte is read by the decoder (log 13). -/
def unitOf : Instr → UnitId
  | .venc _ _ _ => .venc
  | .vdec _ _ => .vdec
  | .crcu _ _ _ => .crcu
  | .crcm _ _ => .crcm
  | .crc32c _ _ => .crcu
  | .varintCont _ => .vdec
  | .varintTerm _ => .vdec

/-- Everything but one unit's registers and memory is the same in the two states. -/
def sameBut (u : UnitId) (s t : State) : Prop :=
  (u ≠ .venc → t.venc = s.venc) ∧ (u ≠ .vdec → t.vdec = s.vdec) ∧ (u ≠ .crcu → t.crcu = s.crcu) ∧
  (u ≠ .crcm → t.crcm = s.crcm) ∧ t.agenda = s.agenda ∧ t.observed = s.observed ∧ t.freeCount = s.freeCount

/-- Every byte of memory reads the same in the two states. -/
def sameMemory (s t : State) : Prop := ∀ a, memRead t.mem a = memRead s.mem a

/-- The counts of a move fit their registers (00_scope.md R11). -/
def moveWellFormed : Move → Bool
  | .call e => e.wellFormed
  | .start e => e.wellFormed
  | _ => true

/-- The move starts no VENC on fewer than 5 bytes (40_varint_encoder.md R97). -/
def moveAmple : Move → Bool
  | .call e => decide (e.cmdOp ≠ 0#2 ∨ 5 ≤ e.capacity)
  | .start e => decide (e.cmdOp ≠ 0#2 ∨ 5 ≤ e.capacity)
  | _ => true

/-- Every VENC in flight or still to be started has at least 5 bytes: what discharges NO_FAULT (R186, R97). -/
def capacitiesAmple (s : State) : Prop :=
  (s.venc.busy = true → 5 ≤ s.venc.capacity) ∧ ∀ v ∈ s.agenda, moveAmple v = true

/-- `varint_encoder`: legal status, results exactly with OK, and of an operation in flight: what is left of the value, and the
bytes already in the buffer. -/
structure VencInv (s : State) : Prop where
  status : ∀ st, s.venc.status = some st → mayWriteStatus .venc st = true
  results : s.venc.bytesWritten.isSome = true ↔ s.venc.status = some .ok
  counted : ∀ n, s.venc.bytesWritten = some n → 1 ≤ n ∧ n ≤ 5
  fits : fitsSize s.venc.capacity = true
  index : s.venc.busy = true → s.venc.i ≤ s.venc.capacity ∧ s.venc.i ≤ canonicalLength s.venc.value
  left : s.venc.busy = true → s.venc.word = s.venc.value >>> (7 * s.venc.i)
  written : s.venc.busy = true →
    ∀ k < s.venc.i, memRead s.mem (byteAddress s.venc.out k) = canonicalByte s.venc.value k

/-- `varint_decoder`: legal status, results exactly with OK, and of an operation in flight: only continuation bytes so far, and
`acc` and `ovf` are the magnitude modulo `2^32` and whether it has left 32 bits (41_varint_decoder.md R102). -/
structure VdecInv (s : State) : Prop where
  status : ∀ st, s.vdec.status = some st → mayWriteStatus .vdec st = true
  values : s.vdec.value.isSome = true ↔ s.vdec.status = some .ok
  counts : s.vdec.bytesConsumed.isSome = true ↔ s.vdec.status = some .ok
  counted : ∀ n, s.vdec.bytesConsumed = some n → 1 ≤ n
  fits : fitsSize s.vdec.size = true
  index : s.vdec.busy = true → s.vdec.i ≤ s.vdec.size
  continued : s.vdec.busy = true →
    ∀ k < s.vdec.i, contFlag (memRead s.mem (byteAddress s.vdec.inp k)) = true
  gathered : s.vdec.busy = true → s.vdec.acc = BitVec.ofNat 32 (magnitude s.mem s.vdec.inp s.vdec.i)
  overflow : s.vdec.busy = true → (s.vdec.ovf = true ↔ 2 ^ 32 ≤ magnitude s.mem s.vdec.inp s.vdec.i)

/-- `crc32c_core`: legal status, a result exactly with OK, and of an operation in flight: `crc` is the working value of the bytes
read so far. -/
structure CrcuInv (s : State) : Prop where
  status : ∀ st, s.crcu.status = some st → mayWriteStatus .crcu st = true
  results : s.crcu.accOut.isSome = true ↔ s.crcu.status = some .ok
  fits : fitsSize s.crcu.size = true
  index : s.crcu.busy = true → s.crcu.i ≤ s.crcu.size
  working : s.crcu.busy = true →
    s.crcu.crc = crcAfter (condition s.crcu.accIn) (bytesAt s.mem s.crcu.inp s.crcu.i)

/-- `crc32c_ring_multiply`: legal status, a result exactly with OK, and of an operation in flight: `k` bit steps are left, a
whole number of the build's steps, and they lead to the reduced product. -/
structure CrcmInv (s : State) : Prop where
  status : ∀ st, s.crcm.status = some st → mayWriteStatus .crcm st = true
  results : s.crcm.product.isSome = true ↔ s.crcm.status = some .ok
  left : s.crcm.busy = true → s.crcm.k.toNat ≤ 32 ∧ Config.crcVariant.bitsPerStep ∣ s.crcm.k.toNat
  working : s.crcm.busy = true →
    Nat.iterate (reduceStep .bitwise) s.crcm.k.toNat s.crcm.z = reduce (wideProduct s.crcm.a s.crcm.b)

/-- The invariant of the machine: memory in canonical form, every unit as above, the buffers of operations in flight disjoint
(20_memory.md R53), and every pending START well-formed. -/
structure Invariant (s : State) : Prop where
  memory : Memory.wf s.mem = true
  venc : VencInv s
  vdec : VdecInv s
  crcu : CrcuInv s
  crcm : CrcmInv s
  disjoint : ∀ u w, u ≠ w → busyOf u s = true → busyOf w s = true →
    overlap (bufferOf u s).1 (bufferOf u s).2 (bufferOf w s).1 (bufferOf w s).2 = false
  pending : ∀ v ∈ s.agenda, moveWellFormed v = true

end Sys2Proof.Machine
end

