-- ==== Sys2Proof/Certificates/Slice0/Obligations.lean ====
section
/-! DEFINITION. The statements for the provers, each with the rule of spec/ it formalises. -/

open Sys2Proof Sys2Proof.Machine

/-! ### Encodings and codes -/

/-- R61: the values 0x80 .. 0xFF are continuation bytes and 0x00 .. 0x7F terminal bytes, the payload is bits 6:0, and every byte
is one or the other. -/
def Obligations.EveryByteIsContinuationOrTerminal : Prop :=
  ∀ d : Byte,
    (0x80 ≤ d.toNat → decodeByte d = .varintCont (BitVec.ofNat 7 d.toNat)) ∧
    (d.toNat < 0x80 → decodeByte d = .varintTerm (BitVec.ofNat 7 d.toNat))

/-- R60, R61, R75, R79: an operation's code decodes to the operation (the pseudo-operation's to CRCU from a fresh accumulator),
two operations have one code only if they stand for the same core operation, and every byte is the code of what it decodes
to. -/
def Obligations.DecodeInvertsEncode : Prop :=
  (∀ i : Instr, decode (encode i) = i.core) ∧
  (∀ i j : Instr, encode i = encode j ↔ i.core = j.core) ∧
  (∀ d : Byte, encode (decode (.byte d)) = .byte d)

/-- opcode_table.json, R75, R61: the four operation codes and, from 4 on, the varint bytes of the table as `decodeTableWord`
reads them (log 12). -/
def Obligations.OpcodeTableWordsDecode : Prop :=
  decodeTableWord 2 0 = some (.venc 0 0 0) ∧ decodeTableWord 2 1 = some (.vdec 0 0) ∧
  decodeTableWord 2 2 = some (.crcu 0 0 0) ∧ decodeTableWord 2 3 = some (.crcm 0 0) ∧
  decodeTableWord 8 0x80 = some (.varintCont 0) ∧ decodeTableWord 8 0xE5 = some (.varintCont 0x65) ∧
  decodeTableWord 8 0x26 = some (.varintTerm 0x26) ∧ decodeTableWord 8 0x100 = none

/-- R76, R77: the status codes, all four with a meaning. -/
def Obligations.StatusCodesNameTheFourStatuses : Prop :=
  statusCode .ok = 0#2 ∧ statusCode .corrupt = 1#2 ∧ statusCode .truncated = 2#2 ∧ statusCode .capacity = 3#2 ∧
  (∀ st, statusOfCode (statusCode st) = st) ∧ (∀ c, statusCode (statusOfCode c) = c)

/-- R64, R17: the length of the canonical sequence, by value range and as `max(1, ceil(bitlength / 7))`. -/
def Obligations.CanonicalLengthByValueRange : Prop :=
  bitLength 0#32 = 0 ∧ ∀ v : Word,
    canonicalLength v = max 1 ((bitLength v + 6) / 7) ∧
    (v.toNat < 2 ^ bitLength v ∧ (v ≠ 0#32 → 2 ^ (bitLength v - 1) ≤ v.toNat)) ∧
    (v.toNat ≤ 0x7F → canonicalLength v = 1) ∧
    (0x80 ≤ v.toNat → v.toNat ≤ 0x3FFF → canonicalLength v = 2) ∧
    (0x4000 ≤ v.toNat → v.toNat ≤ 0x1FFFFF → canonicalLength v = 3) ∧
    (0x200000 ≤ v.toNat → v.toNat ≤ 0xFFFFFFF → canonicalLength v = 4) ∧
    (0x10000000 ≤ v.toNat → canonicalLength v = 5)

/-- R65: the terminal byte of a canonical sequence. -/
def Obligations.CanonicalTerminalByte : Prop :=
  (∀ v : Word, 1 < canonicalLength v → canonicalByte v (canonicalLength v - 1) ≠ 0x00#8) ∧
  (∀ v : Word, canonicalLength v = 5 →
    0x01 ≤ (canonicalByte v 4).toNat ∧ (canonicalByte v 4).toNat ≤ 0x0F ∧
    (canonicalByte v 4).extractLsb' 0 4 = v.extractLsb' 28 4 ∧ (canonicalByte v 4).extractLsb' 4 3 = 0#3) ∧
  (List.range (canonicalLength 0xFFFFFFFF#32)).map (canonicalByte 0xFFFFFFFF#32) = [0xFF#8, 0xFF#8, 0xFF#8, 0xFF#8, 0x0F#8]

/-! ### VENC -/

/-- R92: with `capacity >= L(value)` VENC ends OK with `L` bytes written, the canonical sequence, and nothing else written; with
less it ends in the capacity violation. The operand registers hold the operands and no other unit is touched. -/
def Obligations.VencWritesCanonicalSequence : Prop :=
  ∀ (value : Word) (capacity out : Nat) (s : State), canStart .venc out capacity s = true →
    (1 ≤ canonicalLength value ∧ canonicalLength value ≤ 5) ∧
    (canonicalLength value ≤ capacity → ∃ t,
      exec (.venc value capacity out) s = .next t ∧
      t.venc.status = some .ok ∧ t.venc.bytesWritten = some (canonicalLength value) ∧ t.venc.busy = false ∧
      t.venc.value = value ∧ t.venc.capacity = capacity ∧ t.venc.out = out ∧
      (∀ k < canonicalLength value, memRead t.mem (byteAddress out k) = canonicalByte value k) ∧
      (∀ a, a < out ∨ out + canonicalLength value ≤ a → memRead t.mem a = memRead s.mem a) ∧
      sameBut .venc s t) ∧
    (capacity < canonicalLength value → ∃ t, exec (.venc value capacity out) s = .fault (.capacityViolation t))

/-- R93, R163, R166, R167: the capacity violation is a fault; the state it carries has status CAPACITY, no `bytes_written`, the
unit idle, and no byte at index `capacity` or above written. The content of the bytes below is free and not stated (log 7). -/
def Obligations.VencCapacityViolationIsFault : Prop :=
  ∀ (value : Word) (capacity out : Nat) (s : State), canStart .venc out capacity s = true →
    capacity < canonicalLength value →
    ∃ t, exec (.venc value capacity out) s = .fault (.capacityViolation t) ∧
      t.venc.status = some .capacity ∧ t.venc.bytesWritten = none ∧ t.venc.busy = false ∧
      (∀ a, a < out ∨ out + capacity ≤ a → memRead t.mem a = memRead s.mem a) ∧
      t.vdec = s.vdec ∧ t.crcu = s.crcu ∧ t.crcm = s.crcm ∧ t.agenda = s.agenda ∧ t.observed = s.observed

/-! ### VDEC and the varint bytes -/

/-- R102 (with R103 for the case without a terminal byte): the decoder's result is the magnitude of the sequence up to the first
terminal byte, or Corrupt when it does not fit 32 bits, or Truncated. -/
def Obligations.VdecReturnsTheMagnitude : Prop :=
  ∀ (size inp : Nat) (s : State), canStart .vdec inp size s = true →
    ∃ t, exec (.vdec size inp) s = .next t ∧ t.vdec.busy = false ∧ t.vdec.size = size ∧ t.vdec.inp = inp ∧
      sameBut .vdec s t ∧ sameMemory s t ∧
      ((∀ k < size, contFlag (memRead s.mem (byteAddress inp k)) = true) →
        t.vdec.status = some (if Config.errUnify then .corrupt else .truncated) ∧ t.vdec.value = none ∧
        t.vdec.bytesConsumed = none) ∧
      (∀ n < size, firstTerminal s.mem inp n →
        (2 ^ 32 ≤ magnitude s.mem inp (n + 1) →
          t.vdec.status = some .corrupt ∧ t.vdec.value = none ∧ t.vdec.bytesConsumed = none) ∧
        (magnitude s.mem inp (n + 1) < 2 ^ 32 →
          t.vdec.status = some .ok ∧ t.vdec.value = some (BitVec.ofNat 32 (magnitude s.mem inp (n + 1))) ∧
          t.vdec.bytesConsumed = some (n + 1)))

/-- R103: a buffer without a terminal byte in its first `size` bytes is Truncated, whatever the payloads, the empty buffer
included; the report is TRUNCATED, or CORRUPT in a build with `ERR_UNIFY = true`. -/
def Obligations.VdecWithoutTerminalByteIsTruncated : Prop :=
  ∀ (size inp : Nat) (s : State), canStart .vdec inp size s = true →
    (∀ k < size, contFlag (memRead s.mem (byteAddress inp k)) = true) →
    ∃ t, exec (.vdec size inp) s = .next t ∧
      (Config.errUnify = false → t.vdec.status = some .truncated) ∧
      (Config.errUnify = true → t.vdec.status = some .corrupt) ∧ t.vdec.busy = false

/-- R48, R102, R108: the result of a decode depends on the bytes up to the terminal byte only; what lies after it is neither read
nor reflected in the result. -/
def Obligations.VdecIgnoresBytesAfterTerminal : Prop :=
  ∀ (size inp n : Nat) (s : State) (m : Memory), canStart .vdec inp size s = true →
    n < size → firstTerminal s.mem inp n →
    (∀ k ≤ n, memRead m (byteAddress inp k) = memRead s.mem (byteAddress inp k)) →
    ∃ t, exec (.vdec size inp) s = .next t ∧ exec (.vdec size inp) (s.setMem m) = .next (t.setMem m)

/-- R101, R106 (the reading of R61's row as the decoder's step is log 13): on a continuation byte the decoder gathers the payload
and goes to the next index. -/
def Obligations.ContinuationByteAdvancesDecode : Prop :=
  ∀ (p : Payload) (s : State), s.vdec.busy = true → s.vdec.i < s.vdec.size →
    ∃ t, exec (.varintCont p) s = .next t ∧ sameBut .vdec s t ∧ sameMemory s t ∧
      t.vdec.i = s.vdec.i + 1 ∧ t.vdec.busy = true ∧
      t.vdec.size = s.vdec.size ∧ t.vdec.inp = s.vdec.inp ∧ t.vdec.value = s.vdec.value ∧
      t.vdec.bytesConsumed = s.vdec.bytesConsumed ∧ t.vdec.status = s.vdec.status ∧
      (s.vdec.i ≤ 3 → t.vdec.acc = s.vdec.acc ||| (p.setWidth 32 <<< (7 * s.vdec.i)) ∧ t.vdec.ovf = s.vdec.ovf) ∧
      (s.vdec.i = 4 → t.vdec.acc = s.vdec.acc ||| ((p.extractLsb' 0 4).setWidth 32 <<< 28) ∧
        t.vdec.ovf = (s.vdec.ovf || decide (p.extractLsb' 4 3 ≠ 0#3))) ∧
      (5 ≤ s.vdec.i → t.vdec.acc = s.vdec.acc ∧ t.vdec.ovf = (s.vdec.ovf || decide (p ≠ 0#7)))

/-- R101, R104, R106, R110 (log 13): on a terminal byte the decoder gathers the payload, checks `ovf`, and ends the operation with
the value and the count or with Corrupt and neither. That the DONE is in this step, and that `i` stays at the terminal byte's
index, is the model's reading (log 17). -/
def Obligations.TerminalByteEndsDecode : Prop :=
  ∀ (p : Payload) (s : State), s.vdec.busy = true → s.vdec.i < s.vdec.size →
    ∃ t, exec (.varintTerm p) s = .next t ∧ sameBut .vdec s t ∧ sameMemory s t ∧ t.vdec.busy = false ∧
      t.vdec.size = s.vdec.size ∧ t.vdec.inp = s.vdec.inp ∧ t.vdec.i = s.vdec.i ∧
      (s.vdec.i ≤ 3 → t.vdec.acc = s.vdec.acc ||| (p.setWidth 32 <<< (7 * s.vdec.i)) ∧ t.vdec.ovf = s.vdec.ovf) ∧
      (s.vdec.i = 4 → t.vdec.acc = s.vdec.acc ||| ((p.extractLsb' 0 4).setWidth 32 <<< 28) ∧
        t.vdec.ovf = (s.vdec.ovf || decide (p.extractLsb' 4 3 ≠ 0#3))) ∧
      (5 ≤ s.vdec.i → t.vdec.acc = s.vdec.acc ∧ t.vdec.ovf = (s.vdec.ovf || decide (p ≠ 0#7))) ∧
      (t.vdec.ovf = true →
        t.vdec.status = some .corrupt ∧ t.vdec.value = none ∧ t.vdec.bytesConsumed = none) ∧
      (t.vdec.ovf = false →
        t.vdec.status = some .ok ∧ t.vdec.value = some t.vdec.acc ∧ t.vdec.bytesConsumed = some (s.vdec.i + 1))

/-- The model's choice (log 13): a varint byte where no decode in flight waits for one is refused by name. -/
def Obligations.VarintByteWithoutDecodeIsRefused : Prop :=
  ∀ (p : Payload) (s : State), s.vdec.busy = false ∨ s.vdec.size ≤ s.vdec.i →
    exec (.varintCont p) s = .refused .noByteDue ∧ exec (.varintTerm p) s = .refused .noByteDue

/-! ### CRCU and CRC32C -/

/-- R123: the three ways of the byte step are one function, `bitstep^8(c ^ zext_32(d))`. -/
def Obligations.BytestepWaysAgree : Prop :=
  ∀ (v : CrcVariant) (c : Word) (d : Byte),
    bytestepBy v c d = bytestep c d ∧ bytestep c d = Nat.iterate bitstep 8 (c ^^^ d.setWidth 32)

/-- R126: the small table, by definition and as listed. -/
def Obligations.SmallTableEntries : Prop :=
  (∀ n : BitVec 4, t16 n = Nat.iterate bitstep 4 (n.setWidth 32)) ∧
  (List.range 16).map (fun n => t16 (BitVec.ofNat 4 n)) =
    [0x00000000#32, 0x105EC76F#32, 0x20BD8EDE#32, 0x30E349B1#32, 0x417B1DBC#32, 0x5125DAD3#32, 0x61C69362#32, 0x7198540D#32,
     0x82F63B78#32, 0x92A8FC17#32, 0xA24BB5A6#32, 0xB21572C9#32, 0xC38D26C4#32, 0xD3D3E1AB#32, 0xE330A81A#32, 0xF36E6F75#32]

/-- R127: the large table by definition, and its check against the small one. -/
def Obligations.LargeTableEntries : Prop :=
  (∀ n : BitVec 8, t256 n = Nat.iterate bitstep 8 (n.setWidth 32)) ∧
  (∀ n : BitVec 4, t256 (n.setWidth 8 <<< 4) = t16 n) ∧
  t256 0x00#8 = 0x00000000#32 ∧ t256 0x01#8 = 0xF26B8303#32 ∧ t256 0xCE#8 = 0x6FF599E3#32 ∧ t256 0xFF#8 = 0xAD7D5351#32

/-- R122, R130: CRCU ends OK with the checksum of the buffer from the accumulator given; its operand registers hold the operands;
no memory and no other unit changes. -/
def Obligations.CrcuReturnsTheChecksum : Prop :=
  ∀ (accIn : Word) (size inp : Nat) (s : State), canStart .crcu inp size s = true →
    ∃ t, exec (.crcu accIn size inp) s = .next t ∧
      t.crcu.accOut = some (condition (crcAfter (condition accIn) (bytesAt s.mem inp size))) ∧
      t.crcu.status = some .ok ∧ t.crcu.busy = false ∧
      t.crcu.accIn = accIn ∧ t.crcu.size = size ∧ t.crcu.inp = inp ∧ sameBut .crcu s t ∧ sameMemory s t

/-- R129: an update over `[0, n)` followed by an update with its result over `[n, m)` gives what one update over `[0, m)`
gives. -/
def Obligations.CrcuUpdatesCompose : Prop :=
  ∀ (accIn : Word) (m n inp : Nat) (s : State), canStart .crcu inp m s = true → n ≤ m →
    ∃ t1 r t2 t, exec (.crcu accIn n inp) s = .next t1 ∧ t1.crcu.accOut = some r ∧
      exec (.crcu r (m - n) (byteAddress inp n)) t1 = .next t2 ∧
      exec (.crcu accIn m inp) s = .next t ∧ t2.crcu.accOut = t.crcu.accOut

/-- R132: no bytes return the accumulator; from `0xFFFFFFFF` zero bytes return `0xFFFFFFFF`; from `0` they do not return `0`, and
one and four of them give the listed values; the operand register keeps the accumulator. -/
def Obligations.CrcuCornerCases : Prop :=
  (∀ (accIn : Word) (inp : Nat) (s : State), canStart .crcu inp 0 s = true →
    ∃ t, exec (.crcu accIn 0 inp) s = .next t ∧ t.crcu.accOut = some accIn ∧ t.crcu.accIn = accIn) ∧
  (∀ (n inp : Nat) (s : State), canStart .crcu inp n s = true →
    (∀ k < n, memRead s.mem (byteAddress inp k) = 0x00#8) →
    (∃ t, exec (.crcu 0xFFFFFFFF#32 n inp) s = .next t ∧ t.crcu.accOut = some 0xFFFFFFFF#32) ∧
    (n = 1 → ∃ t, exec (.crcu 0#32 n inp) s = .next t ∧ t.crcu.accOut = some 0x527D5351#32) ∧
    (n = 4 → ∃ t, exec (.crcu 0#32 n inp) s = .next t ∧ t.crcu.accOut = some 0x48674BC7#32))

/-- R79: `CRC32C size, IN` is `CRCU 0, size, IN`: the checksum of the buffer from a fresh accumulator. -/
def Obligations.Crc32cIsCrcuFromFreshAccumulator : Prop :=
  ∀ (size inp : Nat) (s : State), canStart .crcu inp size s = true →
    ∃ t, exec (.crc32c size inp) s = .next t ∧ exec (.crcu 0#32 size inp) s = .next t ∧
      t.crcu.accOut = some (checksum 0#32 (bytesAt s.mem inp size)) ∧ t.crcu.status = some .ok ∧ t.crcu.busy = false ∧
      sameBut .crcu s t ∧ sameMemory s t

/-- R131: the source's check value: nine bytes "123456789" from a fresh accumulator give `0xE3069283`. -/
def Obligations.CrcuCheckValue : Prop :=
  ∀ (inp : Nat) (s : State), canStart .crcu inp 9 s = true →
    bytesAt s.mem inp 9 = [0x31#8, 0x32#8, 0x33#8, 0x34#8, 0x35#8, 0x36#8, 0x37#8, 0x38#8, 0x39#8] →
    ∃ t, exec (.crcu 0#32 9 inp) s = .next t ∧ t.crcu.accOut = some 0xE3069283#32

/-! ### CRCM -/

/-- R142, R143, R147: CRCM ends OK with the low word of the reduced wide product, of which nothing is lost; no bit step is left,
the operand registers hold the operands, no memory and no other unit changes. -/
def Obligations.CrcmReturnsTheRingProduct : Prop :=
  ∀ (a b : Word) (s : State), s.crcm.busy = false →
    exec (.crcm a b) s = .next (s.setCrcm
      { a := a, b := b, z := reduce (wideProduct a b), k := 0#6, product := some (ringProduct a b), status := some .ok,
        busy := false }) ∧
    (reduce (wideProduct a b)).toNat < 2 ^ 32 ∧ (clmul a b).toNat < 2 ^ 63

/-- R143: the three ways of the reduction are one function. -/
def Obligations.ReduceWaysAgree : Prop := ∀ (v : CrcVariant) (z : Wide), reduceBy v z = reduce z

/-- The polynomial over GF(2) a ring element stands for: bit `j` is the coefficient of `x^(31-j)` (R70). -/
noncomputable def Sys2Proof.Machine.polynomialOf (v : Word) : Polynomial (ZMod 2) :=
  ∑ j ∈ Finset.range 32, if v.getLsbD j then Polynomial.X ^ (31 - j) else 0

/-- The generator (R70). -/
noncomputable def Sys2Proof.Machine.generator : Polynomial (ZMod 2) :=
  [32, 28, 27, 26, 25, 23, 22, 20, 19, 18, 14, 13, 11, 10, 9, 8, 6, 0].foldr (fun e q => Polynomial.X ^ e + q) 0

/-- R144: the product is that of the polynomials modulo the generator. -/
def Obligations.CrcmIsPolynomialProductModuloGenerator : Prop :=
  ∀ (a b : Word) (s : State), s.crcm.busy = false →
    ∃ t v, exec (.crcm a b) s = .next t ∧ t.crcm.product = some v ∧
      polynomialOf v = (polynomialOf a * polynomialOf b) %ₘ generator

/-- R72: the identity, the zero, the element `x` and `x^32` of the ring. -/
def Obligations.RingConstants : Prop :=
  (∀ b : Word, ringProduct 0x80000000#32 b = b) ∧
  (∀ b : Word, ringProduct 0x00000000#32 b = 0x00000000#32) ∧
  (∀ b : Word, ringProduct 0x40000000#32 b = bitstep b) ∧
  Nat.iterate (ringProduct 0x40000000#32) 32 0x80000000#32 = Config.poly

/-- R145: the ring is commutative, associative and distributes over xor, and it has zero divisors. -/
def Obligations.RingLaws : Prop :=
  (∀ a b : Word, ringProduct a b = ringProduct b a) ∧
  (∀ a b c : Word, ringProduct (ringProduct a b) c = ringProduct a (ringProduct b c)) ∧
  (∀ a b c : Word, ringProduct (a ^^^ c) b = ringProduct a b ^^^ ringProduct c b) ∧
  ringProduct 0xC0000000#32 0xFCA42DAF#32 = 0#32

/-- R148: the checksum of `n` zero bytes by one ring multiplication. -/
def Obligations.ZeroBytesByRingMultiplication : Prop :=
  ∀ (accIn : Word) (n inp : Nat) (s : State), canStart .crcu inp n s = true →
    (∀ k < n, memRead s.mem (byteAddress inp k) = 0x00#8) →
    ∃ t, exec (.crcu accIn n inp) s = .next t ∧
      t.crcu.accOut = some (condition (ringProduct (condition accIn) (zeroBytesFactor n)))

/-! ### Laws over VENC and VDEC -/

/-- R95 Round-trip: decoding what VENC wrote gives the value and the length. -/
def Obligations.DecodeAfterEncodeReturnsTheValue : Prop :=
  ∀ (value : Word) (capacity size buf : Nat) (s : State),
    canStart .venc buf capacity s = true → canStart .vdec buf size s = true →
    5 ≤ capacity → canonicalLength value ≤ size →
    ∃ t u, exec (.venc value capacity buf) s = .next t ∧ exec (.vdec size buf) t = .next u ∧
      t.venc.bytesWritten = some (canonicalLength value) ∧
      u.vdec.status = some .ok ∧ u.vdec.value = some value ∧ u.vdec.bytesConsumed = some (canonicalLength value)

/-- R95 Truncation: a strictly shorter prefix of what VENC wrote, not empty, is Truncated. -/
def Obligations.ProperPrefixOfEncodingIsTruncated : Prop :=
  ∀ (value : Word) (capacity size buf : Nat) (s : State),
    canStart .venc buf capacity s = true → canStart .vdec buf size s = true →
    5 ≤ capacity → 128 ≤ value.toNat → 0 < size → size < canonicalLength value →
    ∃ t u, exec (.venc value capacity buf) s = .next t ∧ exec (.vdec size buf) t = .next u ∧
      u.vdec.status = some (reportedStatus .truncated) ∧ u.vdec.value = none ∧ u.vdec.bytesConsumed = none

/-- R64, R66, R95 Minimality, R111: whatever sequence the decoder accepts, it is at least as long as the encoder's sequence of the
value it spells, and at most `size`. -/
def Obligations.NoAcceptedSequenceIsShorterThanCanonical : Prop :=
  ∀ (size inp n : Nat) (v : Word) (s t : State), exec (.vdec size inp) s = .next t →
    t.vdec.value = some v → t.vdec.bytesConsumed = some n → canonicalLength v ≤ n ∧ n ≤ size

/-! ### START, steps and DONE -/

/-- R186 IDLE and BUF_STABLE, R53: when an operation can be started. -/
def Obligations.LaunchPremises : Prop :=
  ∀ (u : UnitId) (base n : Nat) (s : State),
    canStart u base n s = true ↔
      busyOf u s = false ∧
      ∀ w, w ≠ u → busyOf w s = true → ∀ a, base ≤ a → a < base + n →
        ¬((bufferOf w s).1 ≤ a ∧ a < (bufferOf w s).1 + (bufferOf w s).2)

/-- R94, R106, R130, R147: what a START alone leaves: the operand registers as the host gave them, the working registers loaded,
`busy` set, and everything else as it was. That the result registers stay is deduced: the rules write none at START (log 4); the
pending move is the model's (log 5). -/
def Obligations.StartLoadsTheUnit : Prop :=
  ∀ (e : StartEvent) (rest : List Move) (s : State), s.agenda = .start e :: rest →
    (e.cmdOp = 0#2 → canStart .venc e.buffer e.capacity s = true →
      step s = .next ((s.setAgenda rest).setVenc { s.venc with
        value := e.value, capacity := e.capacity, out := e.buffer, word := e.value, i := 0, busy := true })) ∧
    (e.cmdOp = 1#2 → canStart .vdec e.buffer e.size s = true →
      step s = .next ((s.setAgenda rest).setVdec { s.vdec with
        size := e.size, inp := e.buffer, acc := 0#32, ovf := false, i := 0, busy := true })) ∧
    (e.cmdOp = 2#2 → canStart .crcu e.buffer e.size s = true →
      step s = .next ((s.setAgenda rest).setCrcu { s.crcu with
        accIn := e.accIn, size := e.size, inp := e.buffer, crc := e.accIn ^^^ 0xFFFFFFFF#32, i := 0, busy := true })) ∧
    (e.cmdOp = 3#2 → s.crcm.busy = false →
      step s = .next ((s.setAgenda rest).setCrcm { s.crcm with
        a := e.a, b := e.b, z := clmul e.a e.b <<< 1, k := 32#6, busy := true }))

/-- R181, R198, 93 U8: a START on a busy unit is given no meaning, whether the host waits for the DONE or not (log 14). -/
def Obligations.StartOnBusyUnitIsRefused : Prop :=
  ∀ (e : StartEvent) (s : State), busyOf (unitOf (decodeStart e)) s = true →
    startOnly (decodeStart e) s = .refused (.startWhileBusy (unitOf (decodeStart e))) ∧
    exec (decodeStart e) s = .refused (.startWhileBusy (unitOf (decodeStart e)))

/-- R53, R196, 93 U7: a START on a buffer that shares a byte with the buffer of another operation in flight is given no meaning,
whether the host waits for the DONE or not (log 15). -/
def Obligations.StartOnBufferInUseIsRefused : Prop :=
  ∀ (u w : UnitId) (a base n : Nat) (s : State), w ≠ u → busyOf u s = false → busyOf w s = true →
    base ≤ a → a < base + n → (bufferOf w s).1 ≤ a → a < (bufferOf w s).1 + (bufferOf w s).2 →
    (u = .venc → ∀ v, startOnly (.venc v n base) s = .refused .bufferConflict ∧
      exec (.venc v n base) s = .refused .bufferConflict) ∧
    (u = .vdec → startOnly (.vdec n base) s = .refused .bufferConflict ∧ exec (.vdec n base) s = .refused .bufferConflict) ∧
    (u = .crcu → (∀ c, startOnly (.crcu c n base) s = .refused .bufferConflict ∧
        exec (.crcu c n base) s = .refused .bufferConflict) ∧
      startOnly (.crc32c n base) s = .refused .bufferConflict ∧ exec (.crc32c n base) s = .refused .bufferConflict)

/-- R94, R106, R130, R147: an operation as a whole is its START followed by the steps of its unit alone, the last of which is the
DONE or raises the error; the numbers of steps are those of the step rules (which steps are the DONE: log 17). -/
def Obligations.WholeOperationIsStartAndSteps : Prop :=
  (∀ (value : Word) (capacity out : Nat) (s : State), canStart .venc out capacity s = true →
    andThen (startVenc value capacity out s) (tickTimes .venc (min (canonicalLength value) capacity + 1)) =
      exec (.venc value capacity out) s) ∧
  (∀ (size inp : Nat) (s : State), canStart .vdec inp size s = true →
    ((∀ k < size, contFlag (memRead s.mem (byteAddress inp k)) = true) →
      andThen (startVdec size inp s) (tickTimes .vdec (size + 1)) = exec (.vdec size inp) s) ∧
    (∀ n < size, firstTerminal s.mem inp n →
      andThen (startVdec size inp s) (tickTimes .vdec (n + 1)) = exec (.vdec size inp) s)) ∧
  (∀ (accIn : Word) (size inp : Nat) (s : State), canStart .crcu inp size s = true →
    andThen (startCrcu accIn size inp s) (tickTimes .crcu (size + 1)) = exec (.crcu accIn size inp) s) ∧
  (∀ (a b : Word) (s : State), s.crcm.busy = false →
    andThen (startCrcm a b s) (tickTimes .crcm (32 / Config.crcVariant.bitsPerStep + 1)) = exec (.crcm a b) s)

/-- R75, R101, R106, R181: a step executes the decoded operation: of the START event when the oldest move is a call, of the next
buffer byte when it is a step of a decode in flight (the moves are the model's, log 5; the byte as an operation: log 13). -/
def Obligations.StepRunsTheDecodedOperation : Prop :=
  (∀ (e : StartEvent) (rest : List Move) (s : State), s.agenda = .call e :: rest →
    step s = exec (decode (.start e)) (s.setAgenda rest)) ∧
  (∀ (rest : List Move) (s : State), s.agenda = .tick .vdec :: rest → s.vdec.busy = true → s.vdec.i < s.vdec.size →
    step s = exec (decode (.byte (memRead s.mem (byteAddress s.vdec.inp s.vdec.i)))) (s.setAgenda rest))

/-- R190, R181 (the order among the units is the model's choice, log 6): with no move pending nothing runs when every unit is
idle; otherwise the first unit in flight makes its step. -/
def Obligations.StepWithNothingPending : Prop :=
  ∀ s : State, s.agenda = [] →
    ((∀ u, busyOf u s = false) → step s = .next s) ∧
    (s.venc.busy = true → step s = tick .venc s) ∧
    (s.venc.busy = false → s.vdec.busy = true → step s = tick .vdec s) ∧
    (s.venc.busy = false → s.vdec.busy = false → s.crcu.busy = true → step s = tick .crcu s) ∧
    (s.venc.busy = false → s.vdec.busy = false → s.crcu.busy = false → s.crcm.busy = true → step s = tick .crcm s)

/-- R24, R94, R178, R184: a step of a unit touches only that unit's registers, keeps its operand registers, and of memory only a
write step of VENC (a step of one in flight that is not its DONE) touches a byte, `OUT[i]`; every unit but VENC can always step,
and VENC can unless its buffer is used up. -/
def Obligations.UnitStepFrame : Prop :=
  (∀ (u : UnitId) (s t : State), tick u s = .next t →
    sameBut u s t ∧
    (t.venc.value = s.venc.value ∧ t.venc.capacity = s.venc.capacity ∧ t.venc.out = s.venc.out) ∧
    (t.vdec.size = s.vdec.size ∧ t.vdec.inp = s.vdec.inp) ∧
    (t.crcu.accIn = s.crcu.accIn ∧ t.crcu.size = s.crcu.size ∧ t.crcu.inp = s.crcu.inp) ∧
    (t.crcm.a = s.crcm.a ∧ t.crcm.b = s.crcm.b) ∧
    ∀ a, ¬(u = .venc ∧ s.venc.busy = true ∧ ¬(0 < s.venc.i ∧ s.venc.word = 0#32) ∧ s.venc.i < s.venc.capacity ∧
        a = byteAddress s.venc.out s.venc.i) →
      memRead t.mem a = memRead s.mem a) ∧
  (∀ (u : UnitId) (s : State), u ≠ .venc ∨ s.venc.i < s.venc.capacity → ∃ t, tick u s = .next t)

/-- R43, R184: an operation that ends in a next state has touched only its own unit's registers, and of memory VENC at most
`OUT[0 .. L-1]`, the others nothing. -/
def Obligations.OperationFrame : Prop :=
  ∀ (i : Instr) (s t : State), exec i s = .next t →
    sameBut (unitOf i) s t ∧
    ∀ a, (∀ value capacity out, i = .venc value capacity out → a < out ∨ out + canonicalLength value ≤ a) →
      memRead t.mem a = memRead s.mem a

/-- R30, R168: nothing a unit holds after an operation, an error included, influences a later one: with other old registers of
the idle unit the outcome is the same. -/
def Obligations.OldRegistersDoNotMatter : Prop :=
  (∀ (u : VencUnit) (value : Word) (capacity out : Nat) (s : State), s.venc.busy = false → u.busy = false →
    exec (.venc value capacity out) (s.setVenc u) = exec (.venc value capacity out) s) ∧
  (∀ (u : VdecUnit) (size inp : Nat) (s : State), s.vdec.busy = false → u.busy = false →
    exec (.vdec size inp) (s.setVdec u) = exec (.vdec size inp) s) ∧
  (∀ (u : CrcuUnit) (accIn : Word) (size inp : Nat) (s : State), s.crcu.busy = false → u.busy = false →
    exec (.crcu accIn size inp) (s.setCrcu u) = exec (.crcu accIn size inp) s ∧
    exec (.crc32c size inp) (s.setCrcu u) = exec (.crc32c size inp) s) ∧
  (∀ (u : CrcmUnit) (a b : Word) (s : State), s.crcm.busy = false → u.busy = false →
    exec (.crcm a b) (s.setCrcm u) = exec (.crcm a b) s)

/-! ### The whole machine -/

/-- R32, R33, R190: what reset leaves: every unit idle, no result held, nothing pending, and a step from there runs nothing ("no
result held" is the model's form of R33, log 4). -/
def Obligations.ResetLeavesEveryUnitIdle : Prop :=
  (∀ u, busyOf u State.reset = false) ∧ (∀ r, resultOf r State.reset = none) ∧ State.reset.agenda = [] ∧
  step State.reset = .next State.reset

/-- The invariant holds at reset. -/
def Obligations.ResetMeetsInvariant : Prop := Invariant State.reset

/-- R24, R26, R33, R53, R77, R102, R130, R147: every step of the machine keeps the invariant: memory canonical, legal statuses,
results exactly with OK, the working registers of every operation in flight what the operation so far makes them, buffers in
flight disjoint, indices within their buffers. -/
def Obligations.StepKeepsInvariant : Prop := ∀ s t : State, Invariant s → step s = .next t → Invariant t

/-- R97, R186 NO_FAULT, R195: when every VENC in flight or pending has a capacity of at least 5, no step is a capacity violation,
and every step keeps it so. -/
def Obligations.AmpleCapacitiesNeverFault : Prop :=
  ∀ s : State, Invariant s → capacitiesAmple s →
    (∀ t, step s ≠ .fault (.capacityViolation t)) ∧ (∀ t, step s = .next t → capacitiesAmple t)

/-- R53, R178: steps of two units in flight on disjoint buffers commute, so that operations in flight together have the results
they would have alone. -/
def Obligations.StepsOfTwoUnitsCommute : Prop :=
  ∀ (u w : UnitId) (s s1 s2 : State), u ≠ w →
    (busyOf u s = true → busyOf w s = true →
      overlap (bufferOf u s).1 (bufferOf u s).2 (bufferOf w s).1 (bufferOf w s).2 = false) →
    tick u s = .next s1 → tick w s = .next s2 →
    ∃ t, tick w s1 = .next t ∧ tick u s2 = .next t

/-- R52, R53, R91 to R93, R101 to R103, R110, R122, R142: in every state the invariant allows, whatever the other units and the
host did in between, the step that ends an operation delivers the result of its closed form, the error ends included. Which step
is the end (R94, R106, R130, R147) is log 17; what the capacity violation carries is log 7. -/
def Obligations.LastStepDeliversClosedForm : Prop :=
  ∀ s : State, Invariant s →
    (s.venc.busy = true → s.venc.i = canonicalLength s.venc.value →
      ∃ t, tick .venc s = .next t ∧ t.venc.busy = false ∧ t.venc.status = some .ok ∧
        t.venc.bytesWritten = some (canonicalLength s.venc.value) ∧
        ∀ k < canonicalLength s.venc.value, memRead t.mem (byteAddress s.venc.out k) = canonicalByte s.venc.value k) ∧
    (s.venc.busy = true → s.venc.i = s.venc.capacity → s.venc.capacity < canonicalLength s.venc.value →
      ∃ t, tick .venc s = .fault (.capacityViolation t) ∧ t.venc.busy = false ∧ t.venc.status = some .capacity ∧
        t.venc.bytesWritten = none ∧
        ∀ a, a < s.venc.out ∨ s.venc.out + s.venc.capacity ≤ a → memRead t.mem a = memRead s.mem a) ∧
    (s.vdec.busy = true → s.vdec.i = s.vdec.size →
      (∀ k < s.vdec.size, contFlag (memRead s.mem (byteAddress s.vdec.inp k)) = true) ∧
      ∃ t, tick .vdec s = .next t ∧ t.vdec.busy = false ∧
        t.vdec.status = some (if Config.errUnify then .corrupt else .truncated) ∧ t.vdec.value = none ∧
        t.vdec.bytesConsumed = none) ∧
    (s.vdec.busy = true → s.vdec.i < s.vdec.size → firstTerminal s.mem s.vdec.inp s.vdec.i →
      ∃ t, tick .vdec s = .next t ∧ t.vdec.busy = false ∧
        (2 ^ 32 ≤ magnitude s.mem s.vdec.inp (s.vdec.i + 1) →
          t.vdec.status = some .corrupt ∧ t.vdec.value = none ∧ t.vdec.bytesConsumed = none) ∧
        (magnitude s.mem s.vdec.inp (s.vdec.i + 1) < 2 ^ 32 → t.vdec.status = some .ok ∧
          t.vdec.value = some (BitVec.ofNat 32 (magnitude s.mem s.vdec.inp (s.vdec.i + 1))) ∧
          t.vdec.bytesConsumed = some (s.vdec.i + 1))) ∧
    (s.crcu.busy = true → s.crcu.i = s.crcu.size →
      ∃ t, tick .crcu s = .next t ∧ t.crcu.busy = false ∧ t.crcu.status = some .ok ∧
        t.crcu.accOut = some (checksum s.crcu.accIn (bytesAt s.mem s.crcu.inp s.crcu.size))) ∧
    (s.crcm.busy = true → s.crcm.k = 0#6 →
      ∃ t, tick .crcm s = .next t ∧ t.crcm.busy = false ∧ t.crcm.status = some .ok ∧
        t.crcm.product = some (ringProduct s.crcm.a s.crcm.b))

/-- R181, R185: with no move pending every operation in flight reaches its DONE within the steps left to it, and the run ends,
or ends in the capacity violation (with no move pending the units step in the order of log 6; the bound counts the DONE and the Truncated end as log 17 has
them). -/
def Obligations.EveryRunEnds : Prop :=
  ∀ s : State, Invariant s → s.agenda = [] →
    ∃ n ≤ 6 + (s.vdec.size + 1) + (s.crcu.size + 1) + 33,
      (∃ t, Sys2Proof.core.run n s = .next t ∧ runEnded t = true) ∨
      (∃ t, Sys2Proof.core.run n s = .fault (.capacityViolation t))

/-- R33, R167, R181, R197: a host read of a result register gives its value after DONE, and is a fault while the unit is busy or
when the register holds no value (log 16). -/
def Obligations.HostReadsOnlyDeliveredResults : Prop :=
  ∀ (r : ResultReg) (rest : List Move) (s : State), s.agenda = .readResult r :: rest →
    (∀ v, busyOf (unitOfResult r) s = false → resultOf r s = some v →
      step s = .next ((s.setAgenda rest).setObserved (some v))) ∧
    (busyOf (unitOfResult r) s = true → step s = .fault (.noValue r)) ∧
    (resultOf r s = none → step s = .fault (.noValue r))

/-- R42, R53, R178: the host writes and reads back a byte that no operation in flight uses; every other byte stays; a write to a
byte of a buffer in flight is refused. A read alone gives the byte, of an input buffer in flight too, and is refused for a byte
of an output buffer in flight (log 15; what a read gives stands in `observed`, log 16). -/
def Obligations.HostWritesOutsideTheWindows : Prop :=
  (∀ (a : Nat) (d : Byte) (rest : List Move) (s : State), s.agenda = .store a d :: .load a :: rest →
    ((∀ w, busyOf w s = true → ¬((bufferOf w s).1 ≤ a ∧ a < (bufferOf w s).1 + (bufferOf w s).2)) →
      ∃ t u, step s = .next t ∧ step t = .next u ∧ u.observed = some (.byte d) ∧ memRead u.mem a = d ∧
        (∀ b, b ≠ a → memRead u.mem b = memRead s.mem b) ∧
        u.venc = s.venc ∧ u.vdec = s.vdec ∧ u.crcu = s.crcu ∧ u.crcm = s.crcm ∧ u.agenda = rest ∧
        u.freeCount = s.freeCount) ∧
    (∀ w, busyOf w s = true → (bufferOf w s).1 ≤ a → a < (bufferOf w s).1 + (bufferOf w s).2 →
      step s = .refused .bufferConflict)) ∧
  (∀ (a : Nat) (rest : List Move) (s : State), s.agenda = .load a :: rest →
    (¬(s.venc.busy = true ∧ s.venc.out ≤ a ∧ a < s.venc.out + s.venc.capacity) →
      step s = .next ((s.setAgenda rest).setObserved (some (.byte (memRead s.mem a))))) ∧
    (s.venc.busy = true → s.venc.out ≤ a → a < s.venc.out + s.venc.capacity → step s = .refused .bufferConflict))

/-- R32, R190, R191: reset makes every unit idle and leaves no result; of memory it leaves everything but the first
`min(capacity, 5)` bytes of the buffer of a VENC in flight, whose content is free and not stated (log 8). -/
def Obligations.ResetAbandonsOperations : Prop :=
  ∀ (rest : List Move) (s : State), s.agenda = .reset :: rest →
    ∃ t, step s = .next t ∧ (∀ u, busyOf u t = false) ∧ (∀ r, resultOf r t = none) ∧ t.agenda = rest ∧
      (s.venc.busy = false → sameMemory s t) ∧
      (∀ a, a < s.venc.out ∨ s.venc.out + min s.venc.capacity 5 ≤ a → memRead t.mem a = memRead s.mem a)
end

