-- ==== Sys2Proof/Laws/State.lean ====
section
/-! SUPPORT. One lemma per field of State per update of State, so that no proof unfolds a record update. -/

namespace Sys2Proof.Machine

/-! ### `setVenc` -/

@[simp] theorem setVenc_venc (s : State) (u : VencUnit) : (s.setVenc u).venc = u := rfl
@[simp] theorem setVenc_vdec (s : State) (u : VencUnit) : (s.setVenc u).vdec = s.vdec := rfl
@[simp] theorem setVenc_crcu (s : State) (u : VencUnit) : (s.setVenc u).crcu = s.crcu := rfl
@[simp] theorem setVenc_crcm (s : State) (u : VencUnit) : (s.setVenc u).crcm = s.crcm := rfl
@[simp] theorem setVenc_mem (s : State) (u : VencUnit) : (s.setVenc u).mem = s.mem := rfl
@[simp] theorem setVenc_agenda (s : State) (u : VencUnit) : (s.setVenc u).agenda = s.agenda := rfl
@[simp] theorem setVenc_observed (s : State) (u : VencUnit) : (s.setVenc u).observed = s.observed := rfl
@[simp] theorem setVenc_freeCount (s : State) (u : VencUnit) : (s.setVenc u).freeCount = s.freeCount := rfl

/-! ### `setVdec` -/

@[simp] theorem setVdec_venc (s : State) (u : VdecUnit) : (s.setVdec u).venc = s.venc := rfl
@[simp] theorem setVdec_vdec (s : State) (u : VdecUnit) : (s.setVdec u).vdec = u := rfl
@[simp] theorem setVdec_crcu (s : State) (u : VdecUnit) : (s.setVdec u).crcu = s.crcu := rfl
@[simp] theorem setVdec_crcm (s : State) (u : VdecUnit) : (s.setVdec u).crcm = s.crcm := rfl
@[simp] theorem setVdec_mem (s : State) (u : VdecUnit) : (s.setVdec u).mem = s.mem := rfl
@[simp] theorem setVdec_agenda (s : State) (u : VdecUnit) : (s.setVdec u).agenda = s.agenda := rfl
@[simp] theorem setVdec_observed (s : State) (u : VdecUnit) : (s.setVdec u).observed = s.observed := rfl
@[simp] theorem setVdec_freeCount (s : State) (u : VdecUnit) : (s.setVdec u).freeCount = s.freeCount := rfl

/-! ### `setCrcu` -/

@[simp] theorem setCrcu_venc (s : State) (u : CrcuUnit) : (s.setCrcu u).venc = s.venc := rfl
@[simp] theorem setCrcu_vdec (s : State) (u : CrcuUnit) : (s.setCrcu u).vdec = s.vdec := rfl
@[simp] theorem setCrcu_crcu (s : State) (u : CrcuUnit) : (s.setCrcu u).crcu = u := rfl
@[simp] theorem setCrcu_crcm (s : State) (u : CrcuUnit) : (s.setCrcu u).crcm = s.crcm := rfl
@[simp] theorem setCrcu_mem (s : State) (u : CrcuUnit) : (s.setCrcu u).mem = s.mem := rfl
@[simp] theorem setCrcu_agenda (s : State) (u : CrcuUnit) : (s.setCrcu u).agenda = s.agenda := rfl
@[simp] theorem setCrcu_observed (s : State) (u : CrcuUnit) : (s.setCrcu u).observed = s.observed := rfl
@[simp] theorem setCrcu_freeCount (s : State) (u : CrcuUnit) : (s.setCrcu u).freeCount = s.freeCount := rfl

/-! ### `setCrcm` -/

@[simp] theorem setCrcm_venc (s : State) (u : CrcmUnit) : (s.setCrcm u).venc = s.venc := rfl
@[simp] theorem setCrcm_vdec (s : State) (u : CrcmUnit) : (s.setCrcm u).vdec = s.vdec := rfl
@[simp] theorem setCrcm_crcu (s : State) (u : CrcmUnit) : (s.setCrcm u).crcu = s.crcu := rfl
@[simp] theorem setCrcm_crcm (s : State) (u : CrcmUnit) : (s.setCrcm u).crcm = u := rfl
@[simp] theorem setCrcm_mem (s : State) (u : CrcmUnit) : (s.setCrcm u).mem = s.mem := rfl
@[simp] theorem setCrcm_agenda (s : State) (u : CrcmUnit) : (s.setCrcm u).agenda = s.agenda := rfl
@[simp] theorem setCrcm_observed (s : State) (u : CrcmUnit) : (s.setCrcm u).observed = s.observed := rfl
@[simp] theorem setCrcm_freeCount (s : State) (u : CrcmUnit) : (s.setCrcm u).freeCount = s.freeCount := rfl

/-! ### `setMem` -/

@[simp] theorem setMem_venc (s : State) (m : Memory) : (s.setMem m).venc = s.venc := rfl
@[simp] theorem setMem_vdec (s : State) (m : Memory) : (s.setMem m).vdec = s.vdec := rfl
@[simp] theorem setMem_crcu (s : State) (m : Memory) : (s.setMem m).crcu = s.crcu := rfl
@[simp] theorem setMem_crcm (s : State) (m : Memory) : (s.setMem m).crcm = s.crcm := rfl
@[simp] theorem setMem_mem (s : State) (m : Memory) : (s.setMem m).mem = m := rfl
@[simp] theorem setMem_agenda (s : State) (m : Memory) : (s.setMem m).agenda = s.agenda := rfl
@[simp] theorem setMem_observed (s : State) (m : Memory) : (s.setMem m).observed = s.observed := rfl
@[simp] theorem setMem_freeCount (s : State) (m : Memory) : (s.setMem m).freeCount = s.freeCount := rfl

/-! ### `setAgenda` -/

@[simp] theorem setAgenda_venc (s : State) (g : List Move) : (s.setAgenda g).venc = s.venc := rfl
@[simp] theorem setAgenda_vdec (s : State) (g : List Move) : (s.setAgenda g).vdec = s.vdec := rfl
@[simp] theorem setAgenda_crcu (s : State) (g : List Move) : (s.setAgenda g).crcu = s.crcu := rfl
@[simp] theorem setAgenda_crcm (s : State) (g : List Move) : (s.setAgenda g).crcm = s.crcm := rfl
@[simp] theorem setAgenda_mem (s : State) (g : List Move) : (s.setAgenda g).mem = s.mem := rfl
@[simp] theorem setAgenda_agenda (s : State) (g : List Move) : (s.setAgenda g).agenda = g := rfl
@[simp] theorem setAgenda_observed (s : State) (g : List Move) : (s.setAgenda g).observed = s.observed := rfl
@[simp] theorem setAgenda_freeCount (s : State) (g : List Move) : (s.setAgenda g).freeCount = s.freeCount := rfl

/-! ### `setObserved` -/

@[simp] theorem setObserved_venc (s : State) (r : Option Reading) : (s.setObserved r).venc = s.venc := rfl
@[simp] theorem setObserved_vdec (s : State) (r : Option Reading) : (s.setObserved r).vdec = s.vdec := rfl
@[simp] theorem setObserved_crcu (s : State) (r : Option Reading) : (s.setObserved r).crcu = s.crcu := rfl
@[simp] theorem setObserved_crcm (s : State) (r : Option Reading) : (s.setObserved r).crcm = s.crcm := rfl
@[simp] theorem setObserved_mem (s : State) (r : Option Reading) : (s.setObserved r).mem = s.mem := rfl
@[simp] theorem setObserved_agenda (s : State) (r : Option Reading) : (s.setObserved r).agenda = s.agenda := rfl
@[simp] theorem setObserved_observed (s : State) (r : Option Reading) : (s.setObserved r).observed = r := rfl
@[simp] theorem setObserved_freeCount (s : State) (r : Option Reading) : (s.setObserved r).freeCount = s.freeCount := rfl

/-! ### `setFreeCount` -/

@[simp] theorem setFreeCount_venc (s : State) (n : Nat) : (s.setFreeCount n).venc = s.venc := rfl
@[simp] theorem setFreeCount_vdec (s : State) (n : Nat) : (s.setFreeCount n).vdec = s.vdec := rfl
@[simp] theorem setFreeCount_crcu (s : State) (n : Nat) : (s.setFreeCount n).crcu = s.crcu := rfl
@[simp] theorem setFreeCount_crcm (s : State) (n : Nat) : (s.setFreeCount n).crcm = s.crcm := rfl
@[simp] theorem setFreeCount_mem (s : State) (n : Nat) : (s.setFreeCount n).mem = s.mem := rfl
@[simp] theorem setFreeCount_agenda (s : State) (n : Nat) : (s.setFreeCount n).agenda = s.agenda := rfl
@[simp] theorem setFreeCount_observed (s : State) (n : Nat) : (s.setFreeCount n).observed = s.observed := rfl
@[simp] theorem setFreeCount_freeCount (s : State) (n : Nat) : (s.setFreeCount n).freeCount = n := rfl

/-! ### The same field set twice -/

@[simp] theorem setVenc_setVenc (s : State) (u u' : VencUnit) : (s.setVenc u).setVenc u' = s.setVenc u' := rfl
@[simp] theorem setVdec_setVdec (s : State) (u u' : VdecUnit) : (s.setVdec u).setVdec u' = s.setVdec u' := rfl
@[simp] theorem setCrcu_setCrcu (s : State) (u u' : CrcuUnit) : (s.setCrcu u).setCrcu u' = s.setCrcu u' := rfl
@[simp] theorem setCrcm_setCrcm (s : State) (u u' : CrcmUnit) : (s.setCrcm u).setCrcm u' = s.setCrcm u' := rfl
@[simp] theorem setMem_setMem (s : State) (m m' : Memory) : (s.setMem m).setMem m' = s.setMem m' := rfl
@[simp] theorem setAgenda_setAgenda (s : State) (g g' : List Move) : (s.setAgenda g).setAgenda g' = s.setAgenda g' := rfl
@[simp] theorem setObserved_setObserved (s : State) (r r' : Option Reading) : (s.setObserved r).setObserved r' = s.setObserved r' := rfl
@[simp] theorem setFreeCount_setFreeCount (s : State) (n n' : Nat) : (s.setFreeCount n).setFreeCount n' = s.setFreeCount n' := rfl

/-! ### A field set to what it is -/

@[simp] theorem setVenc_self (s : State) : s.setVenc s.venc = s := rfl
@[simp] theorem setVdec_self (s : State) : s.setVdec s.vdec = s := rfl
@[simp] theorem setCrcu_self (s : State) : s.setCrcu s.crcu = s := rfl
@[simp] theorem setCrcm_self (s : State) : s.setCrcm s.crcm = s := rfl
@[simp] theorem setMem_self (s : State) : s.setMem s.mem = s := rfl
@[simp] theorem setAgenda_self (s : State) : s.setAgenda s.agenda = s := rfl
@[simp] theorem setObserved_self (s : State) : s.setObserved s.observed = s := rfl
@[simp] theorem setFreeCount_self (s : State) : s.setFreeCount s.freeCount = s := rfl

/-! ### `storeByte` -/

@[simp] theorem storeByte_venc (s : State) (a : Nat) (d : Byte) : (storeByte s a d).venc = s.venc := rfl
@[simp] theorem storeByte_vdec (s : State) (a : Nat) (d : Byte) : (storeByte s a d).vdec = s.vdec := rfl
@[simp] theorem storeByte_crcu (s : State) (a : Nat) (d : Byte) : (storeByte s a d).crcu = s.crcu := rfl
@[simp] theorem storeByte_crcm (s : State) (a : Nat) (d : Byte) : (storeByte s a d).crcm = s.crcm := rfl
@[simp] theorem storeByte_mem (s : State) (a : Nat) (d : Byte) : (storeByte s a d).mem = memWrite s.mem a d := rfl
@[simp] theorem storeByte_agenda (s : State) (a : Nat) (d : Byte) : (storeByte s a d).agenda = s.agenda := rfl
@[simp] theorem storeByte_observed (s : State) (a : Nat) (d : Byte) : (storeByte s a d).observed = s.observed := rfl
@[simp] theorem storeByte_freeCount (s : State) (a : Nat) (d : Byte) : (storeByte s a d).freeCount = s.freeCount := rfl

end Sys2Proof.Machine
end

