-- ==== Sys2Proof/Laws/Memory.lean ====
section
/-! SUPPORT. The laws of memory: a read after a write, the canonical form that every memory operation keeps, and what storing
free values changes. -/

namespace Sys2Proof.Machine

/-! ### Reading -/

@[simp] theorem memRead_nil (a : Nat) : memRead [] a = unlistedByte := rfl

theorem memRead_cons (c : Host.Cell) (m : Memory) (a : Nat) :
    memRead (c :: m) a = if c.1 = a then c.2 else memRead m a := rfl

theorem memRead_memErase_same (m : Memory) (a : Nat) : memRead (memErase m a) a = unlistedByte := by
  induction m with
  | nil => rfl
  | cons c m ih =>
    simp only [memErase, List.filter_cons] at ih ⊢
    by_cases h : c.1 = a
    · simp [h, ih]
    · simp [h, memRead_cons, ih]

theorem memRead_memErase_other (m : Memory) {a b : Nat} (h : b ≠ a) : memRead (memErase m a) b = memRead m b := by
  induction m with
  | nil => rfl
  | cons c m ih =>
    simp only [memErase, List.filter_cons] at ih ⊢
    by_cases hc : c.1 = a
    · have hb : c.1 ≠ b := fun e => h (e ▸ hc)
      simp [hc, memRead_cons, ih, Ne.symm h]
    · by_cases hb : c.1 = b <;> simp [hc, memRead_cons, hb, ih]
      simp [← hb, hc, memRead_cons]

theorem memRead_memInsert_other (m : Memory) {a b : Nat} (d : Byte) (h : b ≠ a) :
    memRead (memInsert m a d) b = memRead m b := by
  induction m with
  | nil => simp [memInsert, memRead_cons, Ne.symm h]
  | cons c m ih =>
    unfold memInsert
    split
    · simp [memRead_cons, Ne.symm h]
    · simp [memRead_cons, ih]

theorem memRead_memInsert_same (m : Memory) (a : Nat) (d : Byte) (h : ∀ c ∈ m, c.1 ≠ a) :
    memRead (memInsert m a d) a = d := by
  induction m with
  | nil => simp [memInsert, memRead_cons]
  | cons c m ih =>
    unfold memInsert
    split
    · simp [memRead_cons]
    · simp [memRead_cons, h c (by simp), ih fun e he => h e (by simp [he])]

theorem memErase_keys (m : Memory) (a : Nat) : ∀ c ∈ memErase m a, c.1 ≠ a := by
  intro c hc
  simpa [memErase] using (List.mem_filter.mp hc).2

/-- A read of the address written gives the byte written. -/
@[simp] theorem memRead_memWrite_same (m : Memory) (a : Nat) (d : Byte) : memRead (memWrite m a d) a = d := by
  unfold memWrite
  split
  · next h => rw [memRead_memErase_same, h]
  · exact memRead_memInsert_same _ _ _ (memErase_keys m a)

/-- A write leaves every other address alone. -/
theorem memRead_memWrite_other (m : Memory) {a b : Nat} (d : Byte) (h : b ≠ a) :
    memRead (memWrite m a d) b = memRead m b := by
  unfold memWrite
  split
  · exact memRead_memErase_other m h
  · rw [memRead_memInsert_other _ _ h, memRead_memErase_other m h]

/-! ### The canonical form -/

theorem memWfAbove_cons {lo : Option Nat} {c : Host.Cell} {m : Memory} :
    memWfAbove lo (c :: m) = true ↔
      (∀ l, lo = some l → l < c.1) ∧ c.2 ≠ unlistedByte ∧ memWfAbove (some c.1) m = true := by
  cases lo <;> simp [memWfAbove, and_assoc]

theorem memWfAbove_weaken {lo : Option Nat} {l : Nat} {m : Memory} (hl : ∀ k, lo = some k → k ≤ l)
    (h : memWfAbove (some l) m = true) : memWfAbove lo m = true := by
  cases m with
  | nil => rfl
  | cons c m =>
    rw [memWfAbove_cons] at h ⊢
    exact ⟨fun k hk => lt_of_le_of_lt (hl k hk) (h.1 l rfl), h.2⟩

theorem memErase_keeps_wf (lo : Option Nat) (m : Memory) (a : Nat) (h : memWfAbove lo m = true) :
    memWfAbove lo (memErase m a) = true := by
  induction m generalizing lo with
  | nil => rfl
  | cons c m ih =>
    rw [memWfAbove_cons] at h
    have hm := ih (some c.1) h.2.2
    simp only [memErase, List.filter_cons] at hm ⊢
    split
    · exact memWfAbove_cons.mpr ⟨h.1, h.2.1, hm⟩
    · exact memWfAbove_weaken (fun k hk => (h.1 k hk).le) hm

theorem memInsert_keeps_wf (lo : Option Nat) (m : Memory) (a : Nat) (d : Byte) (hd : d ≠ unlistedByte)
    (hlo : ∀ l, lo = some l → l < a) (hk : ∀ c ∈ m, c.1 ≠ a) (h : memWfAbove lo m = true) :
    memWfAbove lo (memInsert m a d) = true := by
  induction m generalizing lo with
  | nil => exact memWfAbove_cons.mpr ⟨hlo, hd, rfl⟩
  | cons c m ih =>
    rw [memWfAbove_cons] at h
    unfold memInsert
    split
    · next hac =>
      refine memWfAbove_cons.mpr ⟨hlo, hd, memWfAbove_cons.mpr ⟨?_, h.2⟩⟩
      rintro l ⟨⟩
      exact hac
    · next hac =>
      have hne := hk c (by simp)
      refine memWfAbove_cons.mpr ⟨h.1, h.2.1, ih (some c.1) ?_ (fun e he => hk e (by simp [he])) h.2.2⟩
      rintro l ⟨⟩
      omega

/-- A write keeps the canonical form. -/
theorem memWrite_keeps_wf (m : Memory) (a : Nat) (d : Byte) (h : Memory.wf m = true) :
    Memory.wf (memWrite m a d) = true := by
  unfold memWrite
  split
  · exact memErase_keeps_wf none m a h
  · next hd => exact memInsert_keeps_wf none _ a d hd (by simp) (memErase_keys m a) (memErase_keeps_wf none m a h)

/-- Reset memory is in canonical form. -/
theorem reset_memory_wf : Memory.wf State.reset.mem = true := rfl

/-! ### Storing free values -/

@[simp] theorem storeFree_venc (base n : Nat) (s : State) : (storeFree base n s).venc = s.venc := by
  induction n with
  | zero => rfl
  | succ n ih => simp [storeFree, ih]

@[simp] theorem storeFree_vdec (base n : Nat) (s : State) : (storeFree base n s).vdec = s.vdec := by
  induction n with
  | zero => rfl
  | succ n ih => simp [storeFree, ih]

@[simp] theorem storeFree_crcu (base n : Nat) (s : State) : (storeFree base n s).crcu = s.crcu := by
  induction n with
  | zero => rfl
  | succ n ih => simp [storeFree, ih]

@[simp] theorem storeFree_crcm (base n : Nat) (s : State) : (storeFree base n s).crcm = s.crcm := by
  induction n with
  | zero => rfl
  | succ n ih => simp [storeFree, ih]

@[simp] theorem storeFree_agenda (base n : Nat) (s : State) : (storeFree base n s).agenda = s.agenda := by
  induction n with
  | zero => rfl
  | succ n ih => simp [storeFree, ih]

@[simp] theorem storeFree_observed (base n : Nat) (s : State) : (storeFree base n s).observed = s.observed := by
  induction n with
  | zero => rfl
  | succ n ih => simp [storeFree, ih]

@[simp] theorem storeFree_freeCount (base n : Nat) (s : State) :
    (storeFree base n s).freeCount = s.freeCount + n := by
  induction n with
  | zero => rfl
  | succ n ih => simp [storeFree, ih]; omega

/-- Storing free values touches only the bytes it names. -/
theorem storeFree_frame (base n : Nat) (s : State) {a : Nat} (h : a < base ∨ base + n ≤ a) :
    memRead (storeFree base n s).mem a = memRead s.mem a := by
  induction n with
  | zero => rfl
  | succ n ih =>
    simp only [storeFree, setFreeCount_mem, storeByte_mem]
    rw [memRead_memWrite_other _ _ (by omega), ih (by omega)]

/-- Byte `k` of the bytes named takes free value number `k` from the counter on. -/
theorem storeFree_byte (base n : Nat) (s : State) {k : Nat} (h : k < n) :
    memRead (storeFree base n s).mem (base + k) = Config.freeByte (s.freeCount + k) := by
  induction n with
  | zero => omega
  | succ n ih =>
    simp only [storeFree, setFreeCount_mem, storeByte_mem, storeFree_freeCount]
    rcases Nat.lt_succ_iff_lt_or_eq.mp h with hk | rfl
    · rw [memRead_memWrite_other _ _ (by omega), ih hk]
    · simp

/-- Storing free values keeps the canonical form. -/
theorem storeFree_keeps_wf (base n : Nat) (s : State) (h : Memory.wf s.mem = true) :
    Memory.wf (storeFree base n s).mem = true := by
  induction n with
  | zero => exact h
  | succ n ih => simpa [storeFree] using memWrite_keeps_wf _ _ _ ih

end Sys2Proof.Machine
end

