-- ==== Sys2Proof/Laws/Ops.lean ====
section
/-! SUPPORT. For each shared operation one lemma that says everything it can do, and the small lemmas of the unit steps. -/

namespace Sys2Proof.Machine

/-! ### Sequencing -/

@[simp] theorem andThen_next (s : State) (f : State → Result) : andThen (.next s) f = f s := rfl
@[simp] theorem andThen_fault (e : Fault) (f : State → Result) : andThen (.fault e) f = .fault e := rfl
@[simp] theorem andThen_refused (e : Refusal) (f : State → Result) : andThen (.refused e) f = .refused e := rfl

theorem andThen_eq_next {r : Result} {f : State → Result} {t : State} (h : andThen r f = .next t) :
    ∃ s, r = .next s ∧ f s = .next t := by
  cases r with
  | next s => exact ⟨s, rfl, h⟩
  | fault e => cases h
  | refused e => cases h

/-! ### Runs of bytes -/

theorem inBuffer_iff {base n a : Nat} : inBuffer base n a = true ↔ base ≤ a ∧ a < base + n := by
  simp [inBuffer]

/-- Two runs overlap exactly when some address lies in both. -/
theorem overlap_iff {b m c n : Nat} : overlap b m c n = true ↔ ∃ a, inBuffer b m a = true ∧ inBuffer c n a = true := by
  simp only [overlap, inBuffer_iff, Bool.and_eq_true, decide_eq_true_eq]
  constructor
  · rintro ⟨⟨⟨hm, hn⟩, h1⟩, h2⟩
    exact ⟨max b c, by omega⟩
  · rintro ⟨a, ha⟩
    omega

theorem overlap_comm (b m c n : Nat) : overlap b m c n = overlap c n b m := by
  rw [Bool.eq_iff_iff, overlap_iff, overlap_iff]
  exact exists_congr fun a => and_comm

/-- A part of a run that meets no other run meets none either. -/
theorem overlap_part {b m c n b' m' : Nat} (h : overlap b m c n = false) (hb : b ≤ b') (hm : b' + m' ≤ b + m) :
    overlap b' m' c n = false := by
  rw [← Bool.not_eq_true, overlap_iff] at h ⊢
  rintro ⟨a, ha, hc⟩
  rw [inBuffer_iff] at ha
  exact h ⟨a, inBuffer_iff.mpr (by omega), hc⟩

theorem mem_allUnits (u : UnitId) : u ∈ allUnits := by cases u <;> simp [allUnits]

theorem clashes_iff {u : UnitId} {base n : Nat} {s : State} :
    clashes u base n s = true ↔
      ∃ w, w ≠ u ∧ busyOf w s = true ∧ overlap base n (bufferOf w s).1 (bufferOf w s).2 = true := by
  simp [clashes, List.any_eq_true, mem_allUnits, and_assoc]

/-! ### START -/

theorem canStart_iff {u : UnitId} {base n : Nat} {s : State} :
    canStart u base n s = true ↔ busyOf u s = false ∧ clashes u base n s = false := by
  simp [canStart]

/-- Everything START can do: refuse a busy unit, refuse a buffer in use, or start. -/
theorem beginOp_cases (u : UnitId) (base n : Nat) (s t : State) :
    (busyOf u s = true ∧ beginOp u base n s t = .refused (.startWhileBusy u)) ∨
    (busyOf u s = false ∧ clashes u base n s = true ∧ beginOp u base n s t = .refused .bufferConflict) ∨
    (canStart u base n s = true ∧ beginOp u base n s t = .next t) := by
  unfold beginOp
  cases hb : busyOf u s <;> cases hc : clashes u base n s <;> simp [canStart, hb, hc]

theorem beginOp_of_canStart {u : UnitId} {base n : Nat} {s t : State} (h : canStart u base n s = true) :
    beginOp u base n s t = .next t := by
  obtain ⟨hb, hc⟩ := canStart_iff.mp h
  simp [beginOp, hb, hc]

/-- An operation that names no buffer clashes with nothing. -/
theorem clashes_empty (u : UnitId) (base : Nat) (s : State) : clashes u base 0 s = false := by
  rw [← Bool.not_eq_true, clashes_iff]
  rintro ⟨w, -, -, h⟩
  simp [overlap] at h

/-! ### The end of an operation with an error -/

/-- Everything an error does: of VDEC a next state that differs in the result registers and `busy`, of VENC a fault. -/
theorem endWithError_cases (k : ErrorKind) (s : State) :
    (k ≠ .capacityViolation ∧ endWithError k s =
      .next (s.setVdec { s.vdec with
        value := none, bytesConsumed := none, status := some (reportedStatus k), busy := false })) ∨
    (k = .capacityViolation ∧ ∃ t, endWithError k s = .fault (.capacityViolation t) ∧
      t.venc = { s.venc with bytesWritten := none, status := some .capacity, busy := false } ∧
      t.vdec = s.vdec ∧ t.crcu = s.crcu ∧ t.crcm = s.crcm ∧ t.agenda = s.agenda ∧ t.observed = s.observed ∧
      t.freeCount = s.freeCount + s.venc.capacity ∧
      ∀ a, inBuffer s.venc.out s.venc.capacity a = false → memRead t.mem a = memRead s.mem a) := by
  cases k with
  | corrupt => exact .inl ⟨by decide, rfl⟩
  | truncated => exact .inl ⟨by decide, rfl⟩
  | capacityViolation =>
    refine .inr ⟨rfl, _, rfl, ?_⟩
    simp only [setVenc_venc, setVenc_vdec, setVenc_crcu, setVenc_crcm, setVenc_agenda, setVenc_observed,
      setVenc_freeCount, setVenc_mem, storeFree_vdec, storeFree_crcu, storeFree_crcm,
      storeFree_agenda, storeFree_observed, storeFree_freeCount, reportedStatus, true_and]
    intro a ha
    refine storeFree_frame _ _ _ ?_
    rw [← Bool.not_eq_true, inBuffer_iff] at ha
    omega

/-! ### Reset -/

/-- Everything reset does. -/
theorem resetBlock_spec (s : State) :
    (resetBlock s).venc = {} ∧ (resetBlock s).vdec = {} ∧ (resetBlock s).crcu = {} ∧ (resetBlock s).crcm = {} ∧
    (resetBlock s).agenda = s.agenda ∧ (resetBlock s).observed = s.observed ∧
    ∀ a, (s.venc.busy = false ∨ inBuffer s.venc.out (min s.venc.capacity 5) a = false) →
      memRead (resetBlock s).mem a = memRead s.mem a := by
  unfold resetBlock
  cases hb : s.venc.busy
  · simp [State.reset]
  · refine ⟨rfl, rfl, rfl, rfl, by simp, by simp, ?_⟩
    rintro a (h | h)
    · cases h
    · simp only [if_true]
      refine storeFree_frame _ _ _ ?_
      rw [← Bool.not_eq_true, inBuffer_iff] at h
      omega

theorem resetBlock_keeps_memory_wf (s : State) (h : Memory.wf s.mem = true) : Memory.wf (resetBlock s).mem = true := by
  unfold resetBlock
  cases s.venc.busy
  · exact h
  · exact storeFree_keeps_wf _ _ _ h

/-! ### The host's accesses -/

/-- Everything a host read of a result register can do. -/
theorem readResult_cases (r : ResultReg) (s : State) :
    (∃ v, busyOf (unitOfResult r) s = false ∧ resultOf r s = some v ∧ readResult r s = .next (s.setObserved (some v))) ∨
    ((busyOf (unitOfResult r) s = true ∨ resultOf r s = none) ∧ readResult r s = .fault (.noValue r)) := by
  unfold readResult
  cases hb : busyOf (unitOfResult r) s <;> cases hv : resultOf r s <;> simp

/-- Everything a host load can do. -/
theorem hostLoad_cases (a : Nat) (s : State) :
    (s.venc.busy = true ∧ inBuffer s.venc.out s.venc.capacity a = true ∧ hostLoad a s = .refused .bufferConflict) ∨
    ((s.venc.busy = false ∨ inBuffer s.venc.out s.venc.capacity a = false) ∧
      hostLoad a s = .next (s.setObserved (some (.byte (memRead s.mem a))))) := by
  unfold hostLoad
  cases hb : s.venc.busy <;> cases hi : inBuffer s.venc.out s.venc.capacity a <;> simp

/-- Everything a host store can do. -/
theorem hostStore_cases (a : Nat) (d : Byte) (s : State) :
    (∃ w, busyOf w s = true ∧ inBuffer (bufferOf w s).1 (bufferOf w s).2 a = true ∧
      hostStore a d s = .refused .bufferConflict) ∨
    ((∀ w, busyOf w s = true → inBuffer (bufferOf w s).1 (bufferOf w s).2 a = false) ∧
      hostStore a d s = .next (storeByte s a d)) := by
  unfold hostStore
  split
  · next h =>
    rw [List.any_eq_true] at h
    obtain ⟨w, -, hw⟩ := h
    rw [Bool.and_eq_true] at hw
    exact .inl ⟨w, hw.1, hw.2, rfl⟩
  · next h =>
    refine .inr ⟨fun w hw => ?_, rfl⟩
    rw [← Bool.not_eq_true]
    exact fun hi => h (List.any_eq_true.mpr ⟨w, mem_allUnits w, by simp [hw, hi]⟩)

/-! ### One step of a unit -/

/-- Everything a step of VENC can do (R94). -/
theorem tickVenc_cases (s : State) :
    ((0 < s.venc.i ∧ s.venc.word = 0#32) ∧ tickVenc s = .next (vencDone s)) ∨
    (¬(0 < s.venc.i ∧ s.venc.word = 0#32) ∧ s.venc.i < s.venc.capacity ∧ tickVenc s = .next (vencWrite s)) ∨
    (¬(0 < s.venc.i ∧ s.venc.word = 0#32) ∧ s.venc.capacity ≤ s.venc.i ∧
      tickVenc s = endWithError .capacityViolation s) := by
  unfold tickVenc
  split
  · next h => exact .inl ⟨h, rfl⟩
  · next h =>
    split
    · next h' => exact .inr (.inl ⟨h, h', rfl⟩)
    · next h' => exact .inr (.inr ⟨h, by omega, rfl⟩)

/-- Everything a step of CRCU can do (R130). -/
theorem tickCrcu_cases (s : State) :
    (s.crcu.i < s.crcu.size ∧ tickCrcu s = .next (crcuRead s)) ∨
    (s.crcu.size ≤ s.crcu.i ∧ tickCrcu s = .next (crcuDone s)) := by
  unfold tickCrcu
  split
  · next h => exact .inl ⟨h, rfl⟩
  · next h => exact .inr ⟨by omega, rfl⟩

/-- Everything a step of CRCM can do (R147). -/
theorem tickCrcm_cases (s : State) :
    (s.crcm.k = 0#6 ∧ tickCrcm s = .next (crcmDone s)) ∨ (s.crcm.k ≠ 0#6 ∧ tickCrcm s = .next (crcmReduceStep s)) := by
  unfold tickCrcm
  split
  · next h => exact .inl ⟨h, rfl⟩
  · next h => exact .inr ⟨h, rfl⟩

/-- Everything a terminal byte can do (R101, R104). -/
theorem vdecTerminate_cases (p : Payload) (s : State) :
    (gatherOvf s.vdec.i s.vdec.ovf p = true ∧ vdecTerminate p s = endWithError .corrupt (vdecGather p s)) ∨
    (gatherOvf s.vdec.i s.vdec.ovf p = false ∧ vdecTerminate p s = .next (vdecDone (vdecGather p s))) := by
  have h : (vdecGather p s).vdec.ovf = gatherOvf s.vdec.i s.vdec.ovf p := rfl
  simp only [vdecTerminate, ← h]
  by_cases hov : (vdecGather p s).vdec.ovf = true
  · exact .inl ⟨hov, if_pos hov⟩
  · exact .inr ⟨Bool.eq_false_iff.mpr hov, if_neg hov⟩

/-- What a step of a unit is: nothing on an idle unit, else the unit's own step. -/
theorem tick_idle {u : UnitId} {s : State} (h : busyOf u s = false) : tick u s = .next s := by
  simp [tick, tickAction, h, perform]

theorem tick_venc {s : State} (h : s.venc.busy = true) : tick .venc s = tickVenc s := by
  simp [tick, tickAction, busyOf, h, perform]

theorem tick_crcu {s : State} (h : s.crcu.busy = true) : tick .crcu s = tickCrcu s := by
  simp [tick, tickAction, busyOf, h, perform]

theorem tick_crcm {s : State} (h : s.crcm.busy = true) : tick .crcm s = tickCrcm s := by
  simp [tick, tickAction, busyOf, h, perform]

theorem byteDue_iff {s : State} : byteDue s = true ↔ s.vdec.busy = true ∧ s.vdec.i < s.vdec.size := by
  simp [byteDue]

/-- A step of VDEC that reads a continuation byte, one that reads a terminal byte, and the one that finds none left. -/
theorem tick_vdec {s : State} (h : s.vdec.busy = true) :
    tick .vdec s =
      if s.vdec.i < s.vdec.size then
        if contFlag (readIndex s s.vdec.inp s.vdec.i) = true
        then .next (vdecContinue (payloadOf (readIndex s s.vdec.inp s.vdec.i)) s)
        else vdecTerminate (payloadOf (readIndex s s.vdec.inp s.vdec.i)) s
      else endWithError .truncated s := by
  by_cases hi : s.vdec.i < s.vdec.size
  · have hd : byteDue s = true := byteDue_iff.mpr ⟨h, hi⟩
    cases hc : contFlag (readIndex s s.vdec.inp s.vdec.i) <;>
      simp [tick, tickAction, busyOf, h, hd, hi, perform, decodeByte, hc, exec, execVarintCont, execVarintTerm]
  · have hd : byteDue s = false := by rw [← Bool.not_eq_true, byteDue_iff]; exact fun e => hi e.2
    simp [tick, tickAction, busyOf, h, hd, hi, perform]

end Sys2Proof.Machine
end

