-- ==== Sys2Proof/Tests/Slice0.lean ====
section
/-! SUPPORT. Tests of single steps against the vectors of 95_test_vectors.md, words written out from the encodings of
30_encoding.md, ill-formed operations refused, and for every statement a state and operands that meet its premises. -/

namespace Sys2Proof.Tests

open Sys2Proof Sys2Proof.Machine

/-! ### Small states -/

/-- Memory holding the bytes from an address. -/
def memWith (base : Nat) : List Byte → Memory
  | [] => []
  | d :: ds => memWrite (memWith (base + 1) ds) base d

/-- The state after reset with bytes in memory. -/
def holding (base : Nat) (ds : List Byte) : State := State.reset.setMem (memWith base ds)

/-- The next state, if there is one. -/
def after (r : Result) : Option State :=
  match r with
  | .next s => some s
  | .fault _ => none
  | .refused _ => none

/-- The state carried by a capacity violation, if the outcome is one. -/
def violated (r : Result) : Option State :=
  match r with
  | .fault (.capacityViolation s) => some s
  | _ => none

/-- A decode in flight at index `i` of `size` bytes from address 16. -/
def decoding (i size : Nat) (acc : Word) (ovf : Bool) : State :=
  State.reset.setVdec { size := size, inp := 16, acc := acc, ovf := ovf, i := i, busy := true }

/-- Every unit in flight and at its first step: VENC on addresses 0 .. 4, VDEC on 16 .. 17, CRCU on 32. -/
def allInFlight : State :=
  (((State.reset.setVenc { value := 0x80#32, capacity := 5, out := 0, word := 0x80#32, busy := true }).setVdec
    { size := 2, inp := 16, busy := true }).setCrcu { size := 1, inp := 32, crc := 0xFFFFFFFF#32, busy := true }).setCrcm
    { k := 32#6, busy := true }

/-- Every unit in flight and at its last step. -/
def allAtEnd : State :=
  (((State.reset.setVenc { capacity := 1, out := 0, i := 1, busy := true }).setVdec { size := 1, inp := 16, busy := true }).setCrcu
    { size := 0, inp := 32, crc := 0xFFFFFFFF#32, busy := true }).setCrcm { k := 0#6, busy := true }

/-- The same with a host write pending, of a byte that no operation in flight uses. -/
def hostStoreInFlight : State := allInFlight.setAgenda [.store 8 0xAA#8]

/-- A decode in flight about to read the last byte of `80 80 80 80 10`. -/
def overflowAtEnd : State := (decoding 4 5 0#32 false).setMem (memWith 16 [0x80, 0x80, 0x80, 0x80, 0x10])

/-- A VENC with its one byte of buffer used up and a value of two bytes, and a VDEC with its one continuation byte read. -/
def allUsedUp : State :=
  ((State.reset.setVenc { value := 0x80#32, capacity := 1, out := 0, word := 1#32, i := 1, busy := true }).setVdec
    { size := 1, inp := 16, i := 1, busy := true }).setMem (memWrite (memWith 16 [0x80]) 0 0x80#8)

/-! ### Well-formed operations -/

theorem fits_of_lt_eight {n : Nat} (h : n < 8) : fitsSize n = true :=
  decide_eq_true (Nat.lt_of_lt_of_le h (Nat.pow_le_pow_right (n := 2) (i := 3) (by decide) (Nat.le_add_right 3 _)))

/-- A count of `SIZE_W + 1` bits fits no operand register (00_scope.md R11). -/
theorem test_ill_formed_counts_refused :
    (Instr.venc 0 (2 ^ Config.sizeW) 0).wellFormed = false ∧ (Instr.vdec (2 ^ Config.sizeW) 0).wellFormed = false ∧
    (Instr.crcu 0 (2 ^ Config.sizeW) 0).wellFormed = false ∧ (Instr.crc32c (2 ^ Config.sizeW) 0).wellFormed = false ∧
    (StartEvent.mk 0 0 (2 ^ Config.sizeW) 0 0 0 0 0).wellFormed = false ∧
    (StartEvent.mk 0 0 0 (2 ^ Config.sizeW) 0 0 0 0).wellFormed = false := by
  simp [Instr.wellFormed, StartEvent.wellFormed, fitsSize]

/-- A count of 3 bits fits every build's (00_scope.md R11). -/
theorem test_small_counts_well_formed :
    (Instr.venc 0xFFFFFFFF 7 0).wellFormed = true ∧ (Instr.vdec 7 0).wellFormed = true ∧ (Instr.crcu 0 7 0).wellFormed = true ∧
    (Instr.crcm 1 2).wellFormed = true ∧ (Instr.crc32c 7 0).wellFormed = true ∧ (Instr.varintCont 0).wellFormed = true ∧
    (Instr.varintTerm 0).wellFormed = true := by
  simp [Instr.wellFormed, fits_of_lt_eight]

/-! ### Words written out from the encodings -/

/-- R75: the operation codes 00, 01, 10, 11, with the operands beside them. -/
theorem test_decode_operation_codes :
    decode (.start { cmdOp := 0b00#2, value := 0x98765#32, capacity := 5, buffer := 64 }) = .venc 0x98765#32 5 64 ∧
    decode (.start { cmdOp := 0b01#2, size := 3, buffer := 64 }) = .vdec 3 64 ∧
    decode (.start { cmdOp := 0b10#2, accIn := 0xDEADBEEF#32, size := 1, buffer := 64 }) = .crcu 0xDEADBEEF#32 1 64 ∧
    decode (.start { cmdOp := 0b11#2, a := 1#32, b := 2#32 }) = .crcm 1#32 2#32 := by decide

/-- R61, and the boundaries of its two ranges: `1ppppppp` and `0ppppppp`. -/
theorem test_decode_varint_bytes :
    decode (.byte 0b11100101#8) = .varintCont 0b1100101#7 ∧ decode (.byte 0b00100110#8) = .varintTerm 0b0100110#7 ∧
    decode (.byte 0x80#8) = .varintCont 0x00#7 ∧ decode (.byte 0xFF#8) = .varintCont 0x7F#7 ∧
    decode (.byte 0x00#8) = .varintTerm 0x00#7 ∧ decode (.byte 0x7F#8) = .varintTerm 0x7F#7 := by decide

/-- R79: the code of the pseudo-operation is that of CRCU with accumulator 0. -/
theorem test_encode_crc32c : encode (.crc32c 9 64) = .start { cmdOp := 0b10#2, accIn := 0#32, size := 9, buffer := 64 } := by decide

/-- R60: a number of bits that no format has is refused, and so is a number too wide for its bits (log 12). -/
theorem test_table_words_of_no_format :
    [0, 1, 3, 7, 9].all (fun n => decodeTableWord n 0 == none) = true ∧ decodeTableWord 2 4 = none ∧
    decodeTableWord 8 3 = some (.crcm 0 0) ∧ decodeTableWord 8 4 = some (.varintTerm 4) := by decide

/-- A table word of each kind is run by the very next step after reset (log 20). -/
theorem test_table_words_run_from_reset :
    (after (step (State.reset.withFetchWord 2 3))).bind (·.crcm.product) = some 0#32 ∧
    (after (step (State.reset.withFetchWord 8 0x26))).bind (·.vdec.value) = some 0x26#32 ∧
    ((after (step (State.reset.withFetchWord 8 0xE5))).map fun t => (t.vdec.acc, t.vdec.i)) = some (0x65#32, 1) := by
  decide +kernel

/-! ### VENC (95 section 2) -/

/-- D-ENC-9: `E5 8E 26`, 3 bytes. -/
theorem test_venc_624485 :
    ((after (exec (.venc 0x98765#32 5 64) State.reset)).map fun t => (t.venc.bytesWritten, t.venc.status, bytesAt t.mem 64 4)) =
      some (some 3, some .ok, [0xE5#8, 0x8E#8, 0x26#8, 0x00#8]) := by decide +kernel

/-- D-ENC-27: the bytes above the terminal byte keep their values. -/
theorem test_venc_leaves_rest_of_buffer :
    ((after (exec (.venc 1#32 5 64) (holding 64 [0xAA, 0xAA, 0xAA, 0xAA, 0xAA]))).map fun t => bytesAt t.mem 64 5) =
      some [0x01#8, 0xAA#8, 0xAA#8, 0xAA#8, 0xAA#8] := by decide +kernel

/-! ### VDEC (95 section 3) -/

/-- D-DEC-12: the largest value. -/
theorem test_vdec_largest_value :
    ((after (exec (.vdec 5 64) (holding 64 [0xFF, 0xFF, 0xFF, 0xFF, 0x0F]))).map fun t =>
      (t.vdec.value, t.vdec.bytesConsumed, t.vdec.status)) = some (some 0xFFFFFFFF#32, some 5, some .ok) := by decide +kernel

/-- D-DEC-28: bits above 31 at index 4 make the sequence Corrupt at its terminal byte. -/
theorem test_vdec_overflow_is_corrupt :
    ((after (exec (.vdec 6 64) (holding 64 [0xFF, 0xFF, 0xFF, 0xFF, 0xFF, 0x00]))).map fun t => (t.vdec.value, t.vdec.status)) =
      some (none, some .corrupt) := by decide +kernel

/-- The trace of D-DEC-12, first step. -/
theorem test_continuation_byte :
    ((after (exec (.varintCont 0x7F#7) (decoding 0 5 0#32 false))).map fun t => (t.vdec.acc, t.vdec.ovf, t.vdec.i)) =
      some (0x7F#32, false, 1) := by decide

/-- The trace of D-DEC-12, last step. -/
theorem test_terminal_byte :
    ((after (exec (.varintTerm 0x0F#7) (decoding 4 5 0x0FFFFFFF#32 false))).map fun t => (t.vdec.value, t.vdec.bytesConsumed)) =
      some (some 0xFFFFFFFF#32, some 5) := by decide

/-! ### CRCU and CRC32C (95 section 4) -/

/-- D-CRC-11. -/
theorem test_crcu_from_accumulator :
    (after (exec (.crcu 0xDEADBEEF#32 1 64) (holding 64 [0x61]))).bind (·.crcu.accOut) = some 0x7C2D7AB0#32 := by decide +kernel

/-- D-CRC-17: the second part of the split of the check value. -/
theorem test_crcu_split :
    (after (exec (.crcu 0xF63AF4EE#32 5 64) (holding 64 [0x35, 0x36, 0x37, 0x38, 0x39]))).bind (·.crcu.accOut) =
      some 0xE3069283#32 := by decide +kernel

/-- D-CRC-4: "abc". -/
theorem test_crc32c_abc :
    (after (exec (.crc32c 3 64) (holding 64 [0x61, 0x62, 0x63]))).bind (·.crcu.accOut) = some 0x364B3FB7#32 := by decide +kernel

/-- Trace T2, in each way. -/
theorem test_bytestep_trace :
    (bytestepBitwise 0xFFFFFFFF#32 0x31#8, bytestepSmall 0xFFFFFFFF#32 0x31#8, bytestepLarge 0xFFFFFFFF#32 0x31#8) =
      (0x6F0A661C#32, 0x6F0A661C#32, 0x6F0A661C#32) := by decide +kernel

/-! ### CRCM (95 section 5) -/

/-- D-MUL-15. -/
theorem test_crcm_product :
    (after (exec (.crcm 0xDEADBEEF#32 0xCAFEBABE#32) State.reset)).bind (·.crcm.product) = some 0xF3E19C17#32 := by decide +kernel

/-- D-MUL-15: the carry-less product, `z0`, and the first step of the small-table way. -/
theorem test_crcm_intermediates :
    (clmul 0xDEADBEEF#32 0xCAFEBABE#32, wideProduct 0xDEADBEEF#32 0xCAFEBABE#32,
      reduceStep .small16 0xBFFE108D6D6E0714#64, reduceStep .large256 0xBFFE108D6D6E0714#64) =
      (0x5FFF0846B6B7038A#64, 0xBFFE108D6D6E0714#64, 0x0BFFE10897ADFDCD#64, 0x00BFFE105AA93E77#64) := by decide +kernel

/-! ### Premises met: encodings -/

/-- CanonicalLengthByValueRange: both ends of every range (the table of R64). -/
theorem witness_length_ranges :
    [0x0#32, 0x7F#32, 0x80#32, 0x3FFF#32, 0x4000#32, 0x1FFFFF#32, 0x200000#32, 0xFFFFFFF#32, 0x10000000#32, 0xFFFFFFFF#32].map
      canonicalLength = [1, 1, 2, 2, 3, 3, 4, 4, 5, 5] := by decide +kernel

/-- CanonicalTerminalByte: a length above 1, and length 5 at both ends. -/
theorem witness_terminal_byte :
    1 < canonicalLength 0x80#32 ∧ canonicalLength 0x10000000#32 = 5 ∧ canonicalLength 0xFFFFFFFF#32 = 5 := by decide +kernel

/-! ### Premises met: operations -/

/-- VencWritesCanonicalSequence: room left, room exactly, one byte short; VencCapacityViolationIsFault: no room at all. -/
theorem witness_venc :
    canStart .venc 64 5 State.reset = true ∧ canonicalLength 0x98765#32 ≤ 5 ∧
    canStart .venc 64 4 State.reset = true ∧ canonicalLength 0x0FFFFFFF#32 = 4 ∧ 4 < canonicalLength 0x10000000#32 ∧
    canStart .venc 64 0 State.reset = true ∧ 0 < canonicalLength 0#32 := by decide +kernel

/-- D-ENC-18, D-ENC-20: what the violation leaves in the registers. -/
theorem witness_venc_violation :
    ((violated (exec (.venc 0#32 0 64) State.reset)).map fun t => (t.venc.status, t.venc.busy)) = some (some .capacity, false) ∧
    ((violated (exec (.venc 0x80#32 1 64) State.reset)).map fun t => (t.venc.status, t.venc.bytesWritten)) =
      some (some .capacity, none) := by decide

/-- VdecReturnsTheMagnitude, VdecWithoutTerminalByteIsTruncated: no byte, one continuation byte. -/
theorem witness_vdec_truncated :
    canStart .vdec 64 0 State.reset = true ∧
    (∀ k < 0, contFlag (memRead State.reset.mem (byteAddress 64 k)) = true) ∧
    canStart .vdec 64 1 (holding 64 [0x80]) = true ∧
    (∀ k < 1, contFlag (memRead (holding 64 [0x80]).mem (byteAddress 64 k)) = true) := by decide

/-- VdecReturnsTheMagnitude: magnitudes `2^32 - 1` and `2^32` (D-DEC-12, D-DEC-16). -/
theorem witness_vdec_magnitudes :
    canStart .vdec 64 5 (holding 64 [0xFF, 0xFF, 0xFF, 0xFF, 0x0F]) = true ∧
    firstTerminal (holding 64 [0xFF, 0xFF, 0xFF, 0xFF, 0x0F]).mem 64 4 ∧
    magnitude (holding 64 [0xFF, 0xFF, 0xFF, 0xFF, 0x0F]).mem 64 5 = 2 ^ 32 - 1 ∧
    firstTerminal (holding 64 [0x80, 0x80, 0x80, 0x80, 0x10]).mem 64 4 ∧
    magnitude (holding 64 [0x80, 0x80, 0x80, 0x80, 0x10]).mem 64 5 = 2 ^ 32 := by
  unfold firstTerminal
  decide +kernel

/-- VdecIgnoresBytesAfterTerminal: another byte after the terminal byte (D-DEC-10). -/
theorem witness_vdec_trailing :
    canStart .vdec 64 2 (holding 64 [0x26, 0xAA]) = true ∧ firstTerminal (holding 64 [0x26, 0xAA]).mem 64 0 ∧
    (∀ k ≤ 0, memRead (memWith 64 [0x26, 0xBB]) (byteAddress 64 k) = memRead (holding 64 [0x26, 0xAA]).mem (byteAddress 64 k)) := by
  unfold firstTerminal
  decide

/-- ContinuationByteAdvancesDecode, TerminalByteEndsDecode: the indices where the clauses meet. -/
theorem witness_byte_due :
    [3, 4, 5].all (fun i => (decoding i 6 0#32 false).vdec.busy && decide ((decoding i 6 0#32 false).vdec.i < 6)) = true := by decide

/-- TerminalByteEndsDecode: both outcomes. -/
theorem witness_terminal_outcomes :
    ((after (exec (.varintTerm 0x10#7) (decoding 4 5 0#32 false))).map (·.vdec.ovf)) = some true ∧
    ((after (exec (.varintTerm 0x0F#7) (decoding 4 5 0#32 false))).map (·.vdec.ovf)) = some false := by decide

/-- VarintByteWithoutDecodeIsRefused: an idle decoder, and one that has used its buffer up. -/
theorem witness_no_byte_due :
    State.reset.vdec.busy = false ∧ (decoding 5 5 0#32 false).vdec.size ≤ (decoding 5 5 0#32 false).vdec.i := by decide

/-- CrcuReturnsTheChecksum, Crc32cIsCrcuFromFreshAccumulator, CrcuUpdatesCompose: the ends of `n ≤ m`. -/
theorem witness_crcu :
    canStart .crcu 64 9 State.reset = true ∧ canStart .crcu 64 0 State.reset = true ∧ (0 ≤ 9 ∧ 9 ≤ 9) := by decide

/-- CrcuCornerCases, ZeroBytesByRingMultiplication: one and four zero bytes. -/
theorem witness_zero_bytes :
    canStart .crcu 64 1 State.reset = true ∧ (∀ k < 1, memRead State.reset.mem (byteAddress 64 k) = 0x00#8) ∧
    canStart .crcu 64 4 State.reset = true ∧ (∀ k < 4, memRead State.reset.mem (byteAddress 64 k) = 0x00#8) := by decide

/-- CrcuCheckValue: "123456789" in memory. -/
theorem witness_check_value :
    canStart .crcu 64 9 (holding 64 [0x31, 0x32, 0x33, 0x34, 0x35, 0x36, 0x37, 0x38, 0x39]) = true ∧
    bytesAt (holding 64 [0x31, 0x32, 0x33, 0x34, 0x35, 0x36, 0x37, 0x38, 0x39]).mem 64 9 =
      [0x31#8, 0x32#8, 0x33#8, 0x34#8, 0x35#8, 0x36#8, 0x37#8, 0x38#8, 0x39#8] := by decide

/-- CrcmReturnsTheRingProduct, CrcmIsPolynomialProductModuloGenerator. -/
theorem witness_crcm : State.reset.crcm.busy = false := rfl

/-- DecodeAfterEncodeReturnsTheValue, ProperPrefixOfEncodingIsTruncated: the least value and the shortest prefix. -/
theorem witness_round_trip :
    canStart .venc 64 5 State.reset = true ∧ canStart .vdec 64 2 State.reset = true ∧ canonicalLength 0x80#32 ≤ 2 ∧
    canStart .vdec 64 1 State.reset = true ∧ 128 ≤ (0x80#32).toNat ∧ 1 < canonicalLength 0x80#32 := by decide +kernel

/-- NoAcceptedSequenceIsShorterThanCanonical: a sequence longer than the canonical one (D-DEC-22). -/
theorem witness_long_form :
    ((after (exec (.vdec 2 64) (holding 64 [0x80, 0x00]))).map fun t => (t.vdec.value, t.vdec.bytesConsumed)) =
      some (some 0#32, some 2) := by decide +kernel

/-! ### Premises met: START, steps and DONE -/

/-- LaunchPremises: next to a buffer in flight on each side, one byte into it, on a busy unit. -/
theorem witness_launch :
    canStart .crcu 18 1 (decoding 0 2 0#32 false) = true ∧ canStart .crcu 15 1 (decoding 0 2 0#32 false) = true ∧
    canStart .crcu 17 1 (decoding 0 2 0#32 false) = false ∧ canStart .vdec 64 1 (decoding 0 2 0#32 false) = false := by decide

/-- StartLoadsTheUnit: a START of each unit pending. -/
theorem witness_start :
    [0#2, 1#2, 2#2, 3#2].all (fun c =>
      let s := State.reset.setAgenda [.start { cmdOp := c, capacity := 5, size := 2, buffer := 64 }]
      s.agenda == [.start { cmdOp := c, capacity := 5, size := 2, buffer := 64 }] && canStart .venc 64 5 s && canStart .vdec 64 2 s &&
        canStart .crcu 64 2 s && !s.crcm.busy) = true := by decide

/-- StartOnBusyUnitIsRefused: each unit. -/
theorem witness_start_on_busy :
    [0#2, 1#2, 2#2, 3#2].all (fun c => busyOf (unitOf (decodeStart { cmdOp := c })) allInFlight) = true := by decide

/-- StartOnBufferInUseIsRefused: each unit with a buffer, on the first and on the last byte of the one in use. -/
theorem witness_buffer_in_use :
    (UnitId.vdec ≠ .venc ∧ busyOf .venc (decoding 0 2 0#32 false) = false ∧ busyOf .vdec (decoding 0 2 0#32 false) = true ∧
      busyOf .crcu (decoding 0 2 0#32 false) = false ∧ bufferOf .vdec (decoding 0 2 0#32 false) = (16, 2) ∧
      (16 ≤ 16 ∧ 16 < 16 + 1) ∧ (17 ≤ 17 ∧ 17 < 17 + 1 ∧ 17 < 16 + 2)) ∧
    (busyOf .vdec (State.reset.setCrcu { size := 2, inp := 16, busy := true }) = false ∧
      busyOf .crcu (State.reset.setCrcu { size := 2, inp := 16, busy := true }) = true ∧
      bufferOf .crcu (State.reset.setCrcu { size := 2, inp := 16, busy := true }) = (16, 2)) := by decide

/-- StepRunsTheDecodedOperation: a call pending, and a byte due. -/
theorem witness_step_runs :
    (State.reset.setAgenda [.call { cmdOp := 3#2 }]).agenda = .call { cmdOp := 3#2 } :: [] ∧
    ((decoding 0 2 0#32 false).setAgenda [.tick .vdec]).agenda = .tick .vdec :: [] ∧
    (decoding 0 2 0#32 false).vdec.busy = true ∧ (decoding 0 2 0#32 false).vdec.i < (decoding 0 2 0#32 false).vdec.size := by decide

/-- StepWithNothingPending: each of its cases. -/
theorem witness_nothing_pending :
    State.reset.agenda = [] ∧ (∀ u ∈ allUnits, busyOf u State.reset = false) ∧
    allInFlight.agenda = [] ∧ allInFlight.venc.busy = true ∧
    (allInFlight.setVenc {}).vdec.busy = true ∧ ((allInFlight.setVenc {}).setVdec {}).crcu.busy = true ∧
    (((allInFlight.setVenc {}).setVdec {}).setCrcu {}).crcm.busy = true := by decide

/-- UnitStepFrame: a step of every unit has a next state; the DONE step of VENC and its write step. -/
theorem witness_unit_step :
    allUnits.all (fun u => (after (tick u allAtEnd)).isSome) = true ∧ allInFlight.venc.i < allInFlight.venc.capacity ∧
    UnitId.vdec ≠ .venc ∧ (0 < allAtEnd.venc.i ∧ allAtEnd.venc.word = 0#32) ∧
    ¬(0 < allInFlight.venc.i ∧ allInFlight.venc.word = 0#32) := by decide +kernel

/-- OperationFrame, OldRegistersDoNotMatter: operations that end in a next state, and an idle unit with other registers. -/
theorem witness_operation_frame :
    (after (exec (.venc 0#32 1 64) State.reset)).isSome = true ∧ (after (exec (.vdec 1 64) State.reset)).isSome = true ∧
    (after (exec (.crcu 0#32 1 64) State.reset)).isSome = true ∧ (after (exec (.crcm 0#32 0#32) State.reset)).isSome = true ∧
    State.reset.venc.busy = false ∧ (VencUnit.mk 7 3 9 1 2 (some 2) (some .ok) false).busy = false ∧
    State.reset.vdec.busy = false ∧ State.reset.crcu.busy = false ∧ State.reset.crcm.busy = false := by decide +kernel

/-! ### Premises met: the whole machine -/

/-- The invariant with every unit in flight at its first step and a host write pending. -/
theorem witness_invariant_in_flight : Invariant hostStoreInFlight where
  memory := by decide
  venc :=
    { status := nofun, results := by decide, counted := nofun, fits := fits_of_lt_eight (by decide), index := fun _ => by decide
      left := fun _ => by decide, written := fun _ => by decide }
  vdec :=
    { status := nofun, values := by decide, counts := by decide, counted := nofun, fits := fits_of_lt_eight (by decide)
      index := fun _ => by decide, continued := fun _ => by decide, gathered := fun _ => by decide, overflow := fun _ => by decide }
  crcu :=
    { status := nofun, results := by decide, fits := fits_of_lt_eight (by decide), index := fun _ => by decide
      working := fun _ => by decide }
  crcm :=
    { status := nofun, results := by decide, left := fun _ => ⟨by decide, by cases Config.crcVariant <;> decide⟩
      working := fun _ => by decide +kernel }
  disjoint := by intro u w; cases u <;> cases w <;> decide
  pending := by decide

/-- StepKeepsInvariant, AmpleCapacitiesNeverFault: the invariant, ample capacities, and a step that has a next state. -/
theorem witness_step :
    Invariant hostStoreInFlight ∧ capacitiesAmple hostStoreInFlight ∧ (after (step hostStoreInFlight)).isSome = true :=
  ⟨witness_invariant_in_flight, ⟨by decide, by decide⟩, by decide⟩

/-- StepsOfTwoUnitsCommute: two units in flight whose steps have next states. -/
theorem witness_commute :
    UnitId.venc ≠ .crcu ∧ busyOf .venc allInFlight = true ∧ busyOf .crcu allInFlight = true ∧
    overlap (bufferOf .venc allInFlight).1 (bufferOf .venc allInFlight).2 (bufferOf .crcu allInFlight).1
      (bufferOf .crcu allInFlight).2 = false ∧
    (after (tick .venc allInFlight)).isSome = true ∧ (after (tick .crcu allInFlight)).isSome = true := by decide +kernel

/-- The invariant with every unit in flight at its last step. -/
theorem witness_invariant_at_end : Invariant allAtEnd where
  memory := by decide
  venc :=
    { status := nofun, results := by decide, counted := nofun, fits := fits_of_lt_eight (by decide), index := fun _ => by decide
      left := fun _ => by decide, written := fun _ => by decide }
  vdec :=
    { status := nofun, values := by decide, counts := by decide, counted := nofun, fits := fits_of_lt_eight (by decide)
      index := fun _ => by decide, continued := fun _ => by decide, gathered := fun _ => by decide, overflow := fun _ => by decide }
  crcu :=
    { status := nofun, results := by decide, fits := fits_of_lt_eight (by decide), index := fun _ => by decide
      working := fun _ => by decide }
  crcm :=
    { status := nofun, results := by decide, left := fun _ => ⟨by decide, by cases Config.crcVariant <;> decide⟩
      working := fun _ => by decide +kernel }
  disjoint := by intro u w; cases u <;> cases w <;> decide
  pending := nofun

/-- LastStepDeliversClosedForm: every unit at its last step in a state the invariant allows. -/
theorem witness_last_step :
    Invariant allAtEnd ∧ (allAtEnd.venc.busy = true ∧ allAtEnd.venc.i = canonicalLength allAtEnd.venc.value) ∧
    (allAtEnd.vdec.busy = true ∧ allAtEnd.vdec.i < allAtEnd.vdec.size ∧
      firstTerminal allAtEnd.mem allAtEnd.vdec.inp allAtEnd.vdec.i ∧
      magnitude allAtEnd.mem allAtEnd.vdec.inp (allAtEnd.vdec.i + 1) < 2 ^ 32) ∧
    (allAtEnd.crcu.busy = true ∧ allAtEnd.crcu.i = allAtEnd.crcu.size) ∧
    (allAtEnd.crcm.busy = true ∧ allAtEnd.crcm.k = 0#6) :=
  ⟨witness_invariant_at_end, by decide, ⟨by decide, by decide, ⟨by decide, by decide⟩, by decide⟩, by decide, by decide⟩

/-- LastStepDeliversClosedForm: a state the invariant allows in which VDEC reads its last byte and the magnitude is `2^32`
(D-DEC-16). -/
theorem witness_last_step_corrupt :
    Invariant overflowAtEnd ∧ overflowAtEnd.vdec.busy = true ∧ overflowAtEnd.vdec.i < overflowAtEnd.vdec.size ∧
    firstTerminal overflowAtEnd.mem overflowAtEnd.vdec.inp overflowAtEnd.vdec.i ∧
    2 ^ 32 ≤ magnitude overflowAtEnd.mem overflowAtEnd.vdec.inp (overflowAtEnd.vdec.i + 1) :=
  ⟨{ memory := by decide
     venc :=
      { status := nofun, results := by decide, counted := nofun, fits := fits_of_lt_eight (by decide), index := nofun
        left := nofun, written := nofun }
     vdec :=
      { status := nofun, values := by decide, counts := by decide, counted := nofun, fits := fits_of_lt_eight (by decide)
        index := fun _ => by decide, continued := fun _ => by decide, gathered := fun _ => by decide
        overflow := fun _ => by decide +kernel }
     crcu :=
      { status := nofun, results := by decide, fits := fits_of_lt_eight (by decide), index := nofun, working := nofun }
     crcm := { status := nofun, results := by decide, left := nofun, working := nofun }
     disjoint := by intro u w; cases u <;> cases w <;> decide
     pending := nofun }, by decide, by decide, ⟨by decide, by decide⟩, by decide +kernel⟩

/-- LastStepDeliversClosedForm: the error ends of VENC (`capacity < L`) and of VDEC (Truncated) in a state the invariant allows. -/
theorem witness_last_step_used_up :
    Invariant allUsedUp ∧ (allUsedUp.venc.busy = true ∧ allUsedUp.venc.i = allUsedUp.venc.capacity ∧
      allUsedUp.venc.capacity < canonicalLength allUsedUp.venc.value) ∧
    (allUsedUp.vdec.busy = true ∧ allUsedUp.vdec.i = allUsedUp.vdec.size) :=
  ⟨{ memory := by decide
     venc :=
      { status := nofun, results := by decide, counted := nofun, fits := fits_of_lt_eight (by decide)
        index := fun _ => by decide +kernel, left := fun _ => by decide, written := fun _ => by decide +kernel }
     vdec :=
      { status := nofun, values := by decide, counts := by decide, counted := nofun, fits := fits_of_lt_eight (by decide)
        index := fun _ => by decide, continued := fun _ => by decide, gathered := fun _ => by decide
        overflow := fun _ => by decide }
     crcu :=
      { status := nofun, results := by decide, fits := fits_of_lt_eight (by decide), index := nofun, working := nofun }
     crcm := { status := nofun, results := by decide, left := nofun, working := nofun }
     disjoint := by intro u w; cases u <;> cases w <;> decide
     pending := nofun }, by decide +kernel, by decide⟩

/-- EveryRunEnds: nothing pending, every unit in flight. -/
theorem witness_run : Invariant allAtEnd ∧ allAtEnd.agenda = [] := ⟨witness_invariant_at_end, rfl⟩

/-- HostReadsOnlyDeliveredResults: a result there, a busy unit, no result. -/
theorem witness_host_read :
    (State.reset.setAgenda [.readResult .crcuAccOut]).agenda = .readResult .crcuAccOut :: [] ∧
    busyOf (unitOfResult .crcuAccOut) (State.reset.setCrcu { accOut := some 1#32, status := some .ok }) = false ∧
    resultOf .crcuAccOut (State.reset.setCrcu { accOut := some 1#32, status := some .ok }) = some (.word 1#32) ∧
    busyOf (unitOfResult .crcuAccOut) allInFlight = true ∧ resultOf .crcuAccOut State.reset = none := by decide

/-- HostWritesOutsideTheWindows: the bytes beside a buffer in flight, and its first and last byte. -/
theorem witness_host_write :
    (State.reset.setAgenda [.store 64 0xAA#8, .load 64]).agenda = .store 64 0xAA#8 :: .load 64 :: [] ∧
    busyOf .vdec (decoding 0 2 0#32 false) = true ∧ bufferOf .vdec (decoding 0 2 0#32 false) = (16, 2) ∧
    [15, 18].all (fun a => allUnits.all fun w =>
      !(busyOf w (decoding 0 2 0#32 false) && inBuffer (bufferOf w (decoding 0 2 0#32 false)).1
        (bufferOf w (decoding 0 2 0#32 false)).2 a)) = true ∧
    [16, 17].all (fun a => inBuffer 16 2 a) = true := by decide

/-- HostWritesOutsideTheWindows, a read alone: the first and last byte of an output buffer in flight, the byte above it, and a byte
of an input buffer in flight. -/
theorem witness_host_load :
    (allInFlight.setAgenda [.load 16]).agenda = .load 16 :: [] ∧
    [0, 4].all (fun a => allInFlight.venc.busy && inBuffer allInFlight.venc.out allInFlight.venc.capacity a) = true ∧
    [5, 16].all (fun a => !inBuffer allInFlight.venc.out allInFlight.venc.capacity a) = true ∧
    ((after (step (allInFlight.setAgenda [.load 16]))).bind (·.observed)) = some (.byte 0x00#8) := by decide

/-- ResetAbandonsOperations: a VENC in flight and none. -/
theorem witness_reset :
    (allInFlight.setAgenda [.reset]).agenda = .reset :: [] ∧ (State.reset.setAgenda [.reset]).agenda = .reset :: [] ∧
    State.reset.venc.busy = false ∧ allInFlight.venc.busy = true := by decide

end Sys2Proof.Tests
end

/-! # Proofs of the state family: one step of a unit, its frame, and what a move of the agenda comes to -/

namespace Sys2Proof.Machine

/-! ### Registers of one unit -/

/-- A unit's registers are the same in the two states. -/
def sameUnit (u : UnitId) (s t : State) : Prop :=
  match u with
  | .venc => t.venc = s.venc
  | .vdec => t.vdec = s.vdec
  | .crcu => t.crcu = s.crcu
  | .crcm => t.crcm = s.crcm

theorem sameBut.unit {u w : UnitId} {s t : State} (h : sameBut u s t) (hw : w ≠ u) : sameUnit w s t := by
  obtain ⟨hvenc, hvdec, hcrcu, hcrcm, -⟩ := h
  cases w
  · exact hvenc hw.symm
  · exact hvdec hw.symm
  · exact hcrcu hw.symm
  · exact hcrcm hw.symm

theorem sameBut.agenda {u : UnitId} {s t : State} (h : sameBut u s t) : t.agenda = s.agenda := by
  obtain ⟨-, -, -, -, hagenda, -⟩ := h
  exact hagenda

theorem sameUnit.busyOf {u : UnitId} {s t : State} (h : sameUnit u s t) :
    Machine.busyOf u t = Machine.busyOf u s := by
  cases u
  · exact congrArg VencUnit.busy h
  · exact congrArg VdecUnit.busy h
  · exact congrArg CrcuUnit.busy h
  · exact congrArg CrcmUnit.busy h

theorem sameUnit.bufferOf {u : UnitId} {s t : State} (h : sameUnit u s t) :
    Machine.bufferOf u t = Machine.bufferOf u s := by
  cases u
  · exact congrArg (fun r : VencUnit => (r.out, r.capacity)) h
  · exact congrArg (fun r : VdecUnit => (r.inp, r.size)) h
  · exact congrArg (fun r : CrcuUnit => (r.inp, r.size)) h
  · rfl

theorem sameBut_refl (u : UnitId) (s : State) : sameBut u s s :=
  ⟨fun _ => rfl, fun _ => rfl, fun _ => rfl, fun _ => rfl, rfl, rfl, rfl⟩

theorem sameBut_setVenc (s : State) (r : VencUnit) : sameBut .venc s (s.setVenc r) :=
  ⟨fun h => absurd rfl h, fun _ => rfl, fun _ => rfl, fun _ => rfl, rfl, rfl, rfl⟩

theorem sameBut_setVdec (s : State) (r : VdecUnit) : sameBut .vdec s (s.setVdec r) :=
  ⟨fun _ => rfl, fun h => absurd rfl h, fun _ => rfl, fun _ => rfl, rfl, rfl, rfl⟩

theorem sameBut_setCrcu (s : State) (r : CrcuUnit) : sameBut .crcu s (s.setCrcu r) :=
  ⟨fun _ => rfl, fun _ => rfl, fun h => absurd rfl h, fun _ => rfl, rfl, rfl, rfl⟩

theorem sameBut_setCrcm (s : State) (r : CrcmUnit) : sameBut .crcm s (s.setCrcm r) :=
  ⟨fun _ => rfl, fun _ => rfl, fun _ => rfl, fun h => absurd rfl h, rfl, rfl, rfl⟩

theorem sameBut_vencWrite (s : State) : sameBut .venc s (vencWrite s) :=
  sameBut_setVenc (writeIndex s s.venc.out s.venc.i (nextVarintByte s.venc.word)) _

theorem sameUnit_setAgenda (u : UnitId) (s : State) (g : List Move) : sameUnit u s (s.setAgenda g) := by
  cases u <;> rfl

theorem sameUnit_setObserved (u : UnitId) (s : State) (r : Option Reading) : sameUnit u s (s.setObserved r) := by
  cases u <;> rfl

theorem sameUnit_storeByte (u : UnitId) (s : State) (a : Nat) (d : Byte) : sameUnit u s (storeByte s a d) := by
  cases u <;> rfl

@[simp] theorem busyOf_setAgenda (u : UnitId) (s : State) (g : List Move) : busyOf u (s.setAgenda g) = busyOf u s :=
  (sameUnit_setAgenda u s g).busyOf

@[simp] theorem resultOf_setAgenda (r : ResultReg) (s : State) (g : List Move) :
    resultOf r (s.setAgenda g) = resultOf r s := by
  cases r <;> rfl

/-! ### What a step of a unit can do -/

/-- VDEC after the end of its operation with an error (60_exceptions.md R166, R167). -/
def vdecFail (k : ErrorKind) (s : State) : State :=
  s.setVdec { s.vdec with value := none, bytesConsumed := none, status := some (reportedStatus k), busy := false }

theorem endWithError_corrupt (s : State) : endWithError .corrupt s = .next (vdecFail .corrupt s) := rfl

theorem endWithError_truncated (s : State) : endWithError .truncated s = .next (vdecFail .truncated s) := rfl

/-- The byte a VDEC in flight reads next (41_varint_decoder.md R106). -/
def vdecByte (s : State) : Byte := readIndex s s.vdec.inp s.vdec.i

/-- The next states of a unit's step, one constructor per way a step ends in one (R94, R106, R130, R147, R180). -/
inductive UnitStep : UnitId → State → State → Prop
  | idle {u s} (hbusy : busyOf u s = false) : UnitStep u s s
  | vencDone {s} (hbusy : s.venc.busy = true) (hdone : 0 < s.venc.i ∧ s.venc.word = 0#32) :
      UnitStep .venc s (vencDone s)
  | vencWrite {s} (hbusy : s.venc.busy = true) (hmore : ¬(0 < s.venc.i ∧ s.venc.word = 0#32))
      (hroom : s.venc.i < s.venc.capacity) : UnitStep .venc s (vencWrite s)
  | vdecContinue {s} (hbusy : s.vdec.busy = true) (hdue : s.vdec.i < s.vdec.size)
      (hflag : contFlag (vdecByte s) = true) : UnitStep .vdec s (vdecContinue (payloadOf (vdecByte s)) s)
  | vdecDone {s} (hbusy : s.vdec.busy = true) (hdue : s.vdec.i < s.vdec.size)
      (hflag : contFlag (vdecByte s) = false)
      (hovf : gatherOvf s.vdec.i s.vdec.ovf (payloadOf (vdecByte s)) = false) :
      UnitStep .vdec s (vdecDone (vdecGather (payloadOf (vdecByte s)) s))
  | vdecCorrupt {s} (hbusy : s.vdec.busy = true) (hdue : s.vdec.i < s.vdec.size)
      (hflag : contFlag (vdecByte s) = false)
      (hovf : gatherOvf s.vdec.i s.vdec.ovf (payloadOf (vdecByte s)) = true) :
      UnitStep .vdec s (vdecFail .corrupt (vdecGather (payloadOf (vdecByte s)) s))
  | vdecTruncated {s} (hbusy : s.vdec.busy = true) (hend : s.vdec.size ≤ s.vdec.i) :
      UnitStep .vdec s (vdecFail .truncated s)
  | crcuRead {s} (hbusy : s.crcu.busy = true) (hdue : s.crcu.i < s.crcu.size) : UnitStep .crcu s (crcuRead s)
  | crcuDone {s} (hbusy : s.crcu.busy = true) (hend : s.crcu.size ≤ s.crcu.i) : UnitStep .crcu s (crcuDone s)
  | crcmReduce {s} (hbusy : s.crcm.busy = true) (hleft : s.crcm.k ≠ 0#6) : UnitStep .crcm s (crcmReduceStep s)
  | crcmDone {s} (hbusy : s.crcm.busy = true) (hend : s.crcm.k = 0#6) : UnitStep .crcm s (crcmDone s)

theorem tick_venc_cases {s : State} (hbusy : s.venc.busy = true) :
    (∃ t, tick .venc s = .next t ∧ UnitStep .venc s t) ∨
    (s.venc.capacity ≤ s.venc.i ∧ ∀ t, tick .venc s ≠ .next t) := by
  rw [tick_venc hbusy]
  obtain ⟨hdone, h⟩ | ⟨hmore, hroom, h⟩ | ⟨-, hfull, h⟩ := tickVenc_cases s
  · exact .inl ⟨_, h, .vencDone hbusy hdone⟩
  · exact .inl ⟨_, h, .vencWrite hbusy hmore hroom⟩
  · exact .inr ⟨hfull, fun t ht => by rw [h] at ht; cases ht⟩

theorem tick_vdec_continuation {s : State} (hbusy : s.vdec.busy = true) (hdue : s.vdec.i < s.vdec.size)
    (hflag : contFlag (vdecByte s) = true) :
    tick .vdec s = .next (vdecContinue (payloadOf (vdecByte s)) s) :=
  (tick_vdec hbusy).trans ((if_pos hdue).trans (if_pos hflag))

theorem tick_vdec_terminal {s : State} (hbusy : s.vdec.busy = true) (hdue : s.vdec.i < s.vdec.size)
    (hflag : contFlag (vdecByte s) = false) : tick .vdec s = vdecTerminate (payloadOf (vdecByte s)) s :=
  (tick_vdec hbusy).trans ((if_pos hdue).trans (if_neg (Bool.eq_false_iff.mp hflag)))

theorem tick_vdec_used_up {s : State} (hbusy : s.vdec.busy = true) (hend : s.vdec.size ≤ s.vdec.i) :
    tick .vdec s = endWithError .truncated s :=
  (tick_vdec hbusy).trans (if_neg (Nat.not_lt.mpr hend))

theorem tick_vdec_cases {s : State} (hbusy : s.vdec.busy = true) :
    ∃ t, tick .vdec s = .next t ∧ UnitStep .vdec s t := by
  by_cases hdue : s.vdec.i < s.vdec.size
  · cases hflag : contFlag (vdecByte s)
    · rw [tick_vdec_terminal hbusy hdue hflag]
      obtain ⟨hovf, h⟩ | ⟨hovf, h⟩ := vdecTerminate_cases (payloadOf (vdecByte s)) s
      · exact ⟨_, h, .vdecCorrupt hbusy hdue hflag hovf⟩
      · exact ⟨_, h, .vdecDone hbusy hdue hflag hovf⟩
    · exact ⟨_, tick_vdec_continuation hbusy hdue hflag, .vdecContinue hbusy hdue hflag⟩
  · have hend := Nat.le_of_not_lt hdue
    exact ⟨_, tick_vdec_used_up hbusy hend, .vdecTruncated hbusy hend⟩

theorem tick_crcu_cases {s : State} (hbusy : s.crcu.busy = true) :
    ∃ t, tick .crcu s = .next t ∧ UnitStep .crcu s t := by
  rw [tick_crcu hbusy]
  obtain ⟨hdue, h⟩ | ⟨hend, h⟩ := tickCrcu_cases s
  · exact ⟨_, h, .crcuRead hbusy hdue⟩
  · exact ⟨_, h, .crcuDone hbusy hend⟩

theorem tick_crcm_cases {s : State} (hbusy : s.crcm.busy = true) :
    ∃ t, tick .crcm s = .next t ∧ UnitStep .crcm s t := by
  rw [tick_crcm hbusy]
  obtain ⟨hend, h⟩ | ⟨hleft, h⟩ := tickCrcm_cases s
  · exact ⟨_, h, .crcmDone hbusy hend⟩
  · exact ⟨_, h, .crcmReduce hbusy hleft⟩

/-- A unit's step has a next state, one of `UnitStep`, unless it is VENC's with its buffer used up. -/
theorem tick_cases (u : UnitId) (s : State) :
    (∃ t, tick u s = .next t ∧ UnitStep u s t) ∨
    (u = .venc ∧ s.venc.capacity ≤ s.venc.i ∧ ∀ t, tick u s ≠ .next t) := by
  cases hbusy : busyOf u s
  · exact .inl ⟨s, tick_idle hbusy, .idle hbusy⟩
  · cases u with
    | venc => exact (tick_venc_cases hbusy).imp_right fun h => ⟨rfl, h⟩
    | vdec => exact .inl (tick_vdec_cases hbusy)
    | crcu => exact .inl (tick_crcu_cases hbusy)
    | crcm => exact .inl (tick_crcm_cases hbusy)

theorem unitStep_of_tick {u : UnitId} {s t : State} (h : tick u s = .next t) : UnitStep u s t := by
  obtain ⟨t', ht, hstep⟩ | ⟨-, -, hnone⟩ := tick_cases u s
  · cases h.symm.trans ht
    exact hstep
  · exact absurd h (hnone t)

theorem tick_progress {u : UnitId} {s : State} (h : u ≠ .venc ∨ s.venc.i < s.venc.capacity) :
    ∃ t, tick u s = .next t := by
  obtain ⟨t, ht, -⟩ | ⟨hu, hfull, -⟩ := tick_cases u s
  · exact ⟨t, ht⟩
  · exact absurd h (by simp [hu, hfull])

/-! ### The frame of a unit's step -/

/-- The operand registers of every unit are the same in the two states. -/
def sameOperands (s t : State) : Prop :=
  (t.venc.value = s.venc.value ∧ t.venc.capacity = s.venc.capacity ∧ t.venc.out = s.venc.out) ∧
  (t.vdec.size = s.vdec.size ∧ t.vdec.inp = s.vdec.inp) ∧
  (t.crcu.accIn = s.crcu.accIn ∧ t.crcu.size = s.crcu.size ∧ t.crcu.inp = s.crcu.inp) ∧
  (t.crcm.a = s.crcm.a ∧ t.crcm.b = s.crcm.b)

/-- The step of the unit is a write step of VENC, which stores at the address (40_varint_encoder.md R94). -/
def writesAt (u : UnitId) (s : State) (a : Nat) : Prop :=
  u = .venc ∧ s.venc.busy = true ∧ ¬(0 < s.venc.i ∧ s.venc.word = 0#32) ∧ s.venc.i < s.venc.capacity ∧
    a = byteAddress s.venc.out s.venc.i

theorem UnitStep.sameBut {u : UnitId} {s t : State} (h : UnitStep u s t) : sameBut u s t := by
  cases h with
  | idle => exact sameBut_refl u s
  | vencWrite => exact sameBut_vencWrite s
  | vencDone => exact sameBut_setVenc ..
  | vdecContinue | vdecDone | vdecCorrupt | vdecTruncated => exact sameBut_setVdec s _
  | crcuRead | crcuDone => exact sameBut_setCrcu ..
  | crcmReduce | crcmDone => exact sameBut_setCrcm ..

theorem UnitStep.sameOperands {u : UnitId} {s t : State} (h : UnitStep u s t) : sameOperands s t := by
  cases h <;> exact ⟨⟨rfl, rfl, rfl⟩, ⟨rfl, rfl⟩, ⟨rfl, rfl, rfl⟩, ⟨rfl, rfl⟩⟩

/-- Only a write step of VENC changes memory at all. -/
theorem UnitStep.mem {u : UnitId} {s t : State} (h : UnitStep u s t) :
    t.mem = s.mem ∨ ∃ a d, writesAt u s a ∧ t.mem = memWrite s.mem a d := by
  cases h with
  | vencWrite hbusy hmore hroom => exact .inr ⟨_, _, ⟨rfl, hbusy, hmore, hroom, rfl⟩, rfl⟩
  | idle | vencDone | vdecContinue | vdecDone | vdecCorrupt | vdecTruncated | crcuRead | crcuDone | crcmReduce
  | crcmDone => exact .inl rfl

theorem UnitStep.memRead {u : UnitId} {s t : State} (h : UnitStep u s t) {a : Nat} (ha : ¬writesAt u s a) :
    memRead t.mem a = memRead s.mem a := by
  obtain hmem | ⟨b, d, hb, hmem⟩ := h.mem
  · rw [hmem]
  · rw [hmem, memRead_memWrite_other]
    rintro rfl
    exact ha hb

theorem UnitStep.memory_wf {u : UnitId} {s t : State} (h : UnitStep u s t) (hwf : Memory.wf s.mem = true) :
    Memory.wf t.mem = true := by
  obtain hmem | ⟨b, d, -, hmem⟩ := h.mem
  · rwa [hmem]
  · rw [hmem]
    exact memWrite_keeps_wf _ _ _ hwf

/-- Settles O39: what `UnitStep` leaves unchanged, and that only VENC can be without a next state. -/
theorem unitStepFrame : Obligations.UnitStepFrame := by
  refine ⟨fun u s t h => ?_, fun u s h => tick_progress h⟩
  have hstep := unitStep_of_tick h
  obtain ⟨hvenc, hvdec, hcrcu, hcrcm⟩ := hstep.sameOperands
  exact ⟨hstep.sameBut, hvenc, hvdec, hcrcu, hcrcm, fun a ha => hstep.memRead ha⟩

/-! ### What a move of the agenda comes to -/

theorem step_of_agenda {s : State} {v : Move} {rest : List Move} (h : s.agenda = v :: rest) :
    step s = perform (moveAction v (s.setAgenda rest)) := by
  simp [step, fetch, h]

/-- With no move pending a step is that of a unit, or changes nothing. -/
theorem step_of_no_agenda {s : State} (h : s.agenda = []) : (∃ u, step s = tick u s) ∨ step s = .next s := by
  cases hbusy : firstBusy s with
  | some u => exact .inl ⟨u, by simp [step, fetch, h, hbusy, tick]⟩
  | none => exact .inr (by simp [step, fetch, h, hbusy, perform])

/-- Settles O49, from everything a host read of a result register can do. -/
theorem hostReadsOnlyDeliveredResults : Obligations.HostReadsOnlyDeliveredResults := by
  intro r rest s hagenda
  have hstep : step s = readResult r (s.setAgenda rest) := step_of_agenda hagenda
  rw [hstep]
  obtain ⟨v, hidle, hval, hread⟩ | ⟨hnone, hread⟩ := readResult_cases r (s.setAgenda rest)
  · rw [busyOf_setAgenda] at hidle
    rw [resultOf_setAgenda] at hval
    refine ⟨fun w _ hw => ?_, fun hbusy => ?_, fun hres => ?_⟩
    · rw [hread, ← hval, hw]
    · cases hidle.symm.trans hbusy
    · cases hres.symm.trans hval
  · rw [busyOf_setAgenda, resultOf_setAgenda] at hnone
    refine ⟨fun v hidle hval => ?_, fun _ => hread, fun _ => hread⟩
    simp [hidle, hval] at hnone

/-! ### Reset -/

/-- Settles O42: at reset every unit and every result register is at its default. -/
theorem resetLeavesEveryUnitIdle : Obligations.ResetLeavesEveryUnitIdle :=
  ⟨fun u => by cases u <;> rfl, fun r => by cases r <;> rfl, rfl, rfl⟩

/-- Settles O51, from everything reset does. -/
theorem resetAbandonsOperations : Obligations.ResetAbandonsOperations := by
  intro rest s hagenda
  obtain ⟨hvenc, hvdec, hcrcu, hcrcm, hrest, -, hmem⟩ := resetBlock_spec (s.setAgenda rest)
  refine ⟨_, step_of_agenda hagenda, fun u => ?_, fun r => ?_, hrest, fun hidle a => hmem a (.inl hidle), fun a ha => ?_⟩
  · cases u <;> simp [busyOf, hvenc, hvdec, hcrcu, hcrcm]
  · cases r <;> simp [resultOf, hvenc, hvdec, hcrcu, hcrcm]
  · refine hmem a (.inr ?_)
    rw [← Bool.not_eq_true, inBuffer_iff]
    simp only [setAgenda_venc]
    omega

/-! ### What an idle unit holds -/

/-- Whether a START clashes depends on the other units only. -/
theorem sameBut.clashes {u : UnitId} {s t : State} (h : sameBut u s t) (base n : Nat) :
    Machine.clashes u base n t = Machine.clashes u base n s := by
  rw [Bool.eq_iff_iff, clashes_iff, clashes_iff]
  refine exists_congr fun w => and_congr_right fun hw => ?_
  rw [(h.unit hw).busyOf, (h.unit hw).bufferOf]

/-- An operation's outcome is the same from two states in which its unit is idle and the others agree, if what follows START
is. -/
theorem andThen_beginOp_congr {u : UnitId} {base n : Nat} {s s' t t' : State} {f : State → Result}
    (hsame : sameBut u s s') (hidle : busyOf u s = false) (hidle' : busyOf u s' = false) (hf : f t' = f t) :
    andThen (beginOp u base n s' t') f = andThen (beginOp u base n s t) f := by
  unfold beginOp
  rw [hidle, hidle', hsame.clashes]
  cases clashes u base n s
  · exact hf
  · rfl

theorem storeFree_setVenc (base n : Nat) (s : State) (u : VencUnit) :
    storeFree base n (s.setVenc u) = (storeFree base n s).setVenc u := by
  induction n with
  | zero => rfl
  | succ n ih =>
    simp only [storeFree, ih]
    rfl

/-- The loop of R91 writes the result registers at its end only, whatever they held before. -/
theorem vencLoop_old_results (n : Nat) (s : State) (b : Option Nat) (st : Option Status) :
    vencLoop n (s.setVenc { s.venc with bytesWritten := b, status := st }) = vencLoop n s := by
  induction n generalizing s with
  | zero =>
    simp only [vencLoop, endWithError, setVenc_venc, storeFree_setVenc, setVenc_setVenc]
  | succ n ih =>
    by_cases hlast : (vencWrite s).venc.word = 0#32
    · exact (if_pos hlast).trans (if_pos hlast).symm
    · exact (if_neg hlast).trans ((ih (vencWrite s)).trans (if_neg hlast).symm)

/-- The loop of R101 writes the result registers at its end only, whatever they held before. -/
theorem vdecLoop_old_results (n : Nat) (s : State) (v : Option Word) (c : Option Nat) (st : Option Status) :
    vdecLoop n (s.setVdec { s.vdec with value := v, bytesConsumed := c, status := st }) = vdecLoop n s := by
  induction n generalizing s with
  | zero => rfl
  | succ n ih =>
    by_cases hflag : contFlag (vdecByte s) = true
    · exact (if_pos hflag).trans ((ih (vdecContinue (payloadOf (vdecByte s)) s)).trans (if_pos hflag).symm)
    · exact (if_neg hflag).trans (if_neg hflag).symm

/-- The loop of R122 writes the result registers at its end only, whatever they held before. -/
theorem crcuLoop_old_results (n : Nat) (s : State) (v : Option Word) (st : Option Status) :
    crcuLoop n (s.setCrcu { s.crcu with accOut := v, status := st }) = crcuLoop n s := by
  induction n generalizing s with
  | zero => rfl
  | succ n ih => exact ih (crcuRead s)

theorem execCrcu_old_registers (u : CrcuUnit) (accIn : Word) (size inp : Nat) {s : State} (hs : s.crcu.busy = false)
    (hu : u.busy = false) : execCrcu accIn size inp (s.setCrcu u) = execCrcu accIn size inp s :=
  andThen_beginOp_congr (sameBut_setCrcu s u) hs hu
    (congrArg Host.Outcome.next (crcuLoop_old_results size (crcuStarted accIn size inp s) u.accOut u.status))

/-- Settles O41: START overwrites the operand and working registers, the loop the result registers. -/
theorem oldRegistersDoNotMatter : Obligations.OldRegistersDoNotMatter := by
  refine ⟨fun u value capacity out s hs hu => ?_, fun u size inp s hs hu => ?_, fun u accIn size inp s hs hu => ?_,
    fun u a b s hs hu => ?_⟩
  · exact andThen_beginOp_congr (sameBut_setVenc s u) hs hu
      (vencLoop_old_results capacity (vencStarted value capacity out s) u.bytesWritten u.status)
  · exact andThen_beginOp_congr (sameBut_setVdec s u) hs hu
      (vdecLoop_old_results size (vdecStarted size inp s) u.value u.bytesConsumed u.status)
  · exact ⟨execCrcu_old_registers u accIn size inp hs hu, execCrcu_old_registers u Config.freshAccumulator size inp hs hu⟩
  · exact andThen_beginOp_congr (sameBut_setCrcm s u) hs hu rfl

end Sys2Proof.Machine

/-! # Proofs of the state family: closed forms of the data formats against the working registers of a unit -/

namespace Sys2Proof.Machine

/-! ### The canonical sequence and VENC's working register -/

theorem lt_bitLength_iff (v : Word) (n : Nat) : n < bitLength v ↔ 2 ^ n ≤ v.toNat := by
  by_cases hv : v = 0#32
  · simp [bitLength, hv]
  · have hpos : v.toNat ≠ 0 := fun h => hv (BitVec.eq_of_toNat_eq h)
    rw [bitLength, if_neg hv, Nat.lt_succ_iff, Nat.le_log2 hpos]

theorem ushiftRight_ne_zero_iff (v : Word) (n : Nat) : v >>> n ≠ 0#32 ↔ 2 ^ n ≤ v.toNat := by
  rw [ne_eq, BitVec.toNat_eq, BitVec.toNat_ushiftRight, Nat.shiftRight_eq_div_pow, BitVec.toNat_ofNat, Nat.zero_mod,
    Nat.div_eq_zero_iff]
  simp

/-- The canonical sequence has a byte at index `i` exactly when something of the value is left there, or it is the first. -/
theorem lt_canonicalLength_iff (v : Word) (i : Nat) : i < canonicalLength v ↔ i = 0 ∨ v >>> (7 * i) ≠ 0#32 := by
  rw [ushiftRight_ne_zero_iff, ← lt_bitLength_iff, canonicalLength]
  omega

theorem canonicalLength_pos (v : Word) : 0 < canonicalLength v := (lt_canonicalLength_iff v 0).mpr (.inl rfl)

theorem canonicalLength_le_five (v : Word) : canonicalLength v ≤ 5 := by
  rw [← Nat.not_lt, lt_canonicalLength_iff, ushiftRight_ne_zero_iff]
  have := v.isLt
  omega

/-- The byte a write step forms from what is left of the value is the canonical one (30_encoding.md R68). -/
theorem nextVarintByte_eq_canonicalByte (v : Word) (k : Nat) : nextVarintByte (v >>> (7 * k)) = canonicalByte v k := by
  have hflag : (v >>> (7 * k) >>> 7 != 0#32) = decide (k < canonicalLength v - 1) := by
    rw [Bool.eq_iff_iff, bne_iff_ne, decide_eq_true_iff, ← BitVec.shiftRight_add, Nat.lt_sub_iff_add_lt,
      lt_canonicalLength_iff]
    simp [Nat.mul_add]
  rw [nextVarintByte, hflag]
  rfl

/-! ### The magnitude and VDEC's working registers -/

@[simp] theorem magnitude_zero (m : Memory) (base : Nat) : magnitude m base 0 = 0 := rfl

theorem magnitude_succ (m : Memory) (base n : Nat) :
    magnitude m base (n + 1) =
      magnitude m base n + (payloadOf (memRead m (byteAddress base n))).toNat * 2 ^ (7 * n) := by
  simp [magnitude, List.range_succ]

theorem magnitude_congr {m m' : Memory} {base n : Nat}
    (h : ∀ k < n, memRead m' (byteAddress base k) = memRead m (byteAddress base k)) :
    magnitude m' base n = magnitude m base n := by
  induction n with
  | zero => rfl
  | succ n ih => rw [magnitude_succ, magnitude_succ, ih fun k hk => h k (by omega), h n (by omega)]

theorem magnitude_lt (m : Memory) (base n : Nat) : magnitude m base n < 2 ^ (7 * n) := by
  induction n with
  | zero => simp
  | succ n ih =>
    have hp := (payloadOf (memRead m (byteAddress base n))).isLt
    rw [magnitude_succ, Nat.mul_succ, Nat.pow_add]
    nlinarith

/-- At every index `acc` gathers what of the shifted payload falls into 32 bits (41_varint_decoder.md R101). -/
theorem gatherAcc_eq_or (i : Nat) (acc : Word) (p : Payload) :
    gatherAcc i acc p = acc ||| (p.setWidth 32 <<< (7 * i)) := by
  unfold gatherAcc
  split
  · rfl
  · split
    · next hi =>
      have hlow : (p.extractLsb' 0 4).setWidth 32 <<< 28 = p.setWidth 32 <<< 28 := by
        refine BitVec.eq_of_getLsbD_eq fun j hj => ?_
        simp only [BitVec.getLsbD_shiftLeft, BitVec.getLsbD_setWidth, BitVec.getLsbD_extractLsb', Nat.zero_add]
        have : j - 28 < 4 := by omega
        simp [this]
      rw [hlow, hi]
    · rw [BitVec.shiftLeft_eq_zero (by omega), BitVec.or_zero]

/-- `acc` stays the magnitude modulo `2^32` (R102). -/
theorem gatherAcc_ofNat {i m : Nat} (p : Payload) (hm : m < 2 ^ (7 * i)) :
    gatherAcc i (BitVec.ofNat 32 m) p = BitVec.ofNat 32 (m + p.toNat * 2 ^ (7 * i)) := by
  have hdisjoint : BitVec.ofNat 32 m &&& (p.setWidth 32 <<< (7 * i)) = 0#32 := by
    refine BitVec.eq_of_getLsbD_eq fun j _ => ?_
    by_cases hj : j < 7 * i
    · simp [hj]
    · have hbit : m.testBit j = false :=
        Nat.testBit_lt_two_pow (hm.trans_le (Nat.pow_le_pow_right (by decide) (Nat.le_of_not_lt hj)))
      simp [BitVec.getLsbD_ofNat, hbit]
  rw [gatherAcc_eq_or, ← BitVec.add_eq_or_of_and_eq_zero _ _ hdisjoint]
  refine BitVec.eq_of_toNat_eq ?_
  simp [Nat.shiftLeft_eq]

theorem payload_bne_zero_iff (p : Payload) : (p != 0#7) = true ↔ 0 < p.toNat := by
  rw [bne_iff_ne, ne_eq, BitVec.toNat_eq, Nat.pos_iff_ne_zero]
  rfl

/-- The payload bits of weight `2^32` or more at index 4 (R101). -/
theorem payload_high_bne_zero_iff (p : Payload) : (p.extractLsb' 4 3 != 0#3) = true ↔ 16 ≤ p.toNat := by
  have hp := p.isLt
  rw [bne_iff_ne, ne_eq, BitVec.toNat_eq, BitVec.extractLsb'_toNat, Nat.shiftRight_eq_div_pow, BitVec.toNat_ofNat]
  omega

/-- `ovf` stays whether the magnitude has left 32 bits (R102): below index 4 it cannot, at index 4 the high payload bits decide,
above any payload bit does. -/
theorem gatherOvf_iff {i m : Nat} {ovf : Bool} (p : Payload) (hm : m < 2 ^ (7 * i)) (hovf : ovf = true ↔ 2 ^ 32 ≤ m) :
    gatherOvf i ovf p = true ↔ 2 ^ 32 ≤ m + p.toNat * 2 ^ (7 * i) := by
  have hp := p.isLt
  obtain hlow | rfl | hhigh : i ≤ 3 ∨ i = 4 ∨ 5 ≤ i := by omega
  · have hpow : 2 ^ (7 * i) ≤ 2 ^ 21 := Nat.pow_le_pow_right (by decide) (by omega)
    have hsum : m + p.toNat * 2 ^ (7 * i) < 2 ^ 32 := by nlinarith
    rw [gatherOvf, if_pos hlow, hovf]
    omega
  · rw [gatherOvf, if_neg (by decide), if_pos rfl, Bool.or_eq_true, hovf, payload_high_bne_zero_iff]
    omega
  · have hpow : 2 ^ 35 ≤ 2 ^ (7 * i) := Nat.pow_le_pow_right (by decide) (by omega)
    rw [gatherOvf, if_neg (by omega), if_neg (by omega), Bool.or_eq_true, hovf, payload_bne_zero_iff]
    obtain hzero | hpos := Nat.eq_zero_or_pos p.toNat
    · simp [hzero]
    · have hsum : 2 ^ (7 * i) ≤ p.toNat * 2 ^ (7 * i) := Nat.le_mul_of_pos_left _ hpos
      omega

/-! ### The checksum and CRCU's working register -/

theorem bytesAt_succ (m : Memory) (base n : Nat) :
    bytesAt m base (n + 1) = bytesAt m base n ++ [memRead m (byteAddress base n)] := by
  simp [bytesAt, List.range_succ]

theorem bytesAt_congr {m m' : Memory} {base n : Nat}
    (h : ∀ k < n, memRead m' (byteAddress base k) = memRead m (byteAddress base k)) :
    bytesAt m' base n = bytesAt m base n :=
  List.map_congr_left fun k hk => h k (List.mem_range.mp hk)

theorem crcAfter_append_byte (c : Word) (ds : List Byte) (d : Byte) :
    crcAfter c (ds ++ [d]) = bytestep (crcAfter c ds) d := by
  simp [crcAfter]

/-! ### The reduction and CRCM's working register -/

theorem reduceStep_bitwise_even {z : Wide} (h : z.getLsbD 0 = false) : reduceStep .bitwise z = z >>> 1 := by
  rw [reduceStep, h, if_neg Bool.false_ne_true, BitVec.xor_zero]

theorem reduceStep_bitwise_odd {z : Wide} (h : z.getLsbD 0 = true) :
    reduceStep .bitwise z = (z >>> 1) ^^^ Config.poly.setWidth 64 := by
  rw [reduceStep, h, if_pos rfl]

/-- A bit step of the reduction is additive (43_crc32c_ring_multiply.md R143). -/
theorem reduceStep_bitwise_xor (x y : Wide) :
    reduceStep .bitwise (x ^^^ y) = reduceStep .bitwise x ^^^ reduceStep .bitwise y := by
  have hbit := BitVec.getLsbD_xor (x := x) (y := y) (i := 0)
  cases hx : x.getLsbD 0 <;> cases hy : y.getLsbD 0 <;> rw [hx, hy] at hbit
  · rw [reduceStep_bitwise_even hbit, reduceStep_bitwise_even hx, reduceStep_bitwise_even hy,
      BitVec.ushiftRight_xor_distrib]
  · rw [reduceStep_bitwise_odd hbit, reduceStep_bitwise_even hx, reduceStep_bitwise_odd hy,
      BitVec.ushiftRight_xor_distrib, BitVec.xor_assoc]
  · rw [reduceStep_bitwise_odd hbit, reduceStep_bitwise_odd hx, reduceStep_bitwise_even hy,
      BitVec.ushiftRight_xor_distrib]
    ac_rfl
  · rw [reduceStep_bitwise_even hbit, reduceStep_bitwise_odd hx, reduceStep_bitwise_odd hy,
      BitVec.ushiftRight_xor_distrib, BitVec.xor_comm (y >>> 1), BitVec.xor_assoc, ← BitVec.xor_assoc (BitVec.setWidth 64 _),
      BitVec.xor_self, BitVec.zero_xor]

theorem iterate_reduceStep_xor (n : Nat) (x y : Wide) :
    (reduceStep .bitwise)^[n] (x ^^^ y) = (reduceStep .bitwise)^[n] x ^^^ (reduceStep .bitwise)^[n] y :=
  (Function.Semiconj₂.iterate (op := (· ^^^ ·)) reduceStep_bitwise_xor n) x y

/-- On a value of 32 bits a bit step of the reduction is `bitstep` (R121, R143). -/
theorem reduceStep_bitwise_setWidth (c : Word) : reduceStep .bitwise (c.setWidth 64) = (bitstep c).setWidth 64 := by
  have hshift : (c >>> 1).setWidth 64 = (c.setWidth 64 : Wide) >>> 1 := by
    refine BitVec.eq_of_toNat_eq ?_
    simp
  have hbit : (c.setWidth 64 : Wide).getLsbD 0 = c.getLsbD 0 := by simp
  rw [reduceStep, bitstep, BitVec.setWidth_xor, hshift, hbit]
  cases c.getLsbD 0 <;> rfl

theorem iterate_reduceStep_setWidth (n : Nat) (c : Word) :
    (reduceStep .bitwise)^[n] (c.setWidth 64) = (bitstep^[n] c).setWidth 64 :=
  ((Function.Semiconj.iterate_right (f := fun c : Word => (c.setWidth 64 : Wide))
    (fun c => (reduceStep_bitwise_setWidth c).symm) n) c).symm

/-- Bit steps over zero bits are a shift. -/
theorem iterate_reduceStep_of_low_zero (n : Nat) (z : Wide) (h : ∀ i < n, z.getLsbD i = false) :
    (reduceStep .bitwise)^[n] z = z >>> n := by
  induction n generalizing z with
  | zero => simp
  | succ n ih =>
    rw [Function.iterate_succ_apply, reduceStep_bitwise_even (h 0 n.succ_pos), ih, ← BitVec.shiftRight_add, Nat.add_comm]
    intro i hi
    simpa using h (1 + i) (by omega)

/-- The low `n` bits of a wide value: what a reduction step looks up (R143). -/
def lowBits (n : Nat) (z : Wide) : Word := (z.extractLsb' 0 n).setWidth 32

theorem getLsbD_lowBits {n : Nat} (hn : n ≤ 32) (z : Wide) (i : Nat) :
    ((lowBits n z).setWidth 64).getLsbD i = (decide (i < n) && z.getLsbD i) := by
  simp only [lowBits, BitVec.getLsbD_setWidth, BitVec.getLsbD_extractLsb', Nat.zero_add]
  by_cases hi : i < n
  · simp [hi, show i < 32 by omega, show i < 64 by omega]
  · simp [hi]

/-- `n` bit steps at once: the high bits move down, the low bits are looked up (R143). -/
theorem iterate_reduceStep_eq_lookup {n : Nat} (hn : n ≤ 32) (z : Wide) :
    (reduceStep .bitwise)^[n] z = (z >>> n) ^^^ (bitstep^[n] (lowBits n z)).setWidth 64 := by
  have hsplit : z = (z ^^^ (lowBits n z).setWidth 64) ^^^ (lowBits n z).setWidth 64 := by
    rw [BitVec.xor_assoc, BitVec.xor_self, BitVec.xor_zero]
  have hhigh : (reduceStep .bitwise)^[n] (z ^^^ (lowBits n z).setWidth 64) = z >>> n := by
    rw [iterate_reduceStep_of_low_zero]
    · refine BitVec.eq_of_getLsbD_eq fun i _ => ?_
      simp [getLsbD_lowBits hn]
    · intro i hi
      simp [getLsbD_lowBits hn, hi]
  calc (reduceStep .bitwise)^[n] z
      = (reduceStep .bitwise)^[n] ((z ^^^ (lowBits n z).setWidth 64) ^^^ (lowBits n z).setWidth 64) :=
        congrArg _ hsplit
    _ = _ := by rw [iterate_reduceStep_xor, hhigh, iterate_reduceStep_setWidth]

/-- A reduction step of any variant is as many bit steps (R143, R147). -/
theorem reduceStep_eq_iterate (v : CrcVariant) (z : Wide) :
    reduceStep v z = (reduceStep .bitwise)^[v.bitsPerStep] z := by
  cases v with
  | bitwise => rfl
  | small16 => exact (iterate_reduceStep_eq_lookup (by decide) z).symm
  | large256 => exact (iterate_reduceStep_eq_lookup (by decide) z).symm

end Sys2Proof.Machine

/-! # Proofs of the state family: the invariant of the machine -/

namespace Sys2Proof.Machine

/-! ### The invariant, unit by unit -/

/-- The clause of the invariant about one unit. -/
def unitInv (u : UnitId) (s : State) : Prop :=
  match u with
  | .venc => VencInv s
  | .vdec => VdecInv s
  | .crcu => CrcuInv s
  | .crcm => CrcmInv s

theorem Invariant.unit {s : State} (h : Invariant s) (u : UnitId) : unitInv u s := by
  cases u
  · exact h.venc
  · exact h.vdec
  · exact h.crcu
  · exact h.crcm

/-- If the unit is in flight, every byte of its buffer reads the same in the two states. -/
def sameBuffer (u : UnitId) (s t : State) : Prop :=
  busyOf u s = true → ∀ a, inBuffer (bufferOf u s).1 (bufferOf u s).2 a = true → memRead t.mem a = memRead s.mem a

theorem sameBuffer_of_mem_eq {u : UnitId} {s t : State} (h : t.mem = s.mem) : sameBuffer u s t := by
  intro _ a _
  rw [h]

/-- The bytes an operation in flight has dealt with read the same, its index being within its buffer. -/
theorem sameBuffer.memRead {u : UnitId} {s t : State} {i k : Nat} (h : sameBuffer u s t) (hbusy : busyOf u s = true)
    (hi : i ≤ (bufferOf u s).2) (hk : k < i) :
    memRead t.mem (byteAddress (bufferOf u s).1 k) = memRead s.mem (byteAddress (bufferOf u s).1 k) :=
  h hbusy _ (inBuffer_iff.mpr ⟨Nat.le_add_right _ k, Nat.add_lt_add_left (hk.trans_le hi) _⟩)

theorem VencInv.transfer {s t : State} (h : VencInv s) (hregs : sameUnit .venc s t) (hbuf : sameBuffer .venc s t) :
    VencInv t := by
  obtain ⟨hstatus, hresults, hcounted, hfits, hindex, hleft, hwritten⟩ := h
  rw [sameUnit] at hregs
  constructor <;> rw [hregs]
  · exact hstatus
  · exact hresults
  · exact hcounted
  · exact hfits
  · exact hindex
  · exact hleft
  · intro hbusy k hk
    obtain ⟨hi, -⟩ := hindex hbusy
    exact (hbuf.memRead hbusy hi hk).trans (hwritten hbusy k hk)

theorem VdecInv.transfer {s t : State} (h : VdecInv s) (hregs : sameUnit .vdec s t) (hbuf : sameBuffer .vdec s t) :
    VdecInv t := by
  obtain ⟨hstatus, hvalues, hcounts, hcounted, hfits, hindex, hcontinued, hgathered, hoverflow⟩ := h
  rw [sameUnit] at hregs
  have hmag : s.vdec.busy = true → magnitude t.mem s.vdec.inp s.vdec.i = magnitude s.mem s.vdec.inp s.vdec.i :=
    fun hbusy => magnitude_congr fun _ hk => hbuf.memRead hbusy (hindex hbusy) hk
  constructor <;> rw [hregs]
  · exact hstatus
  · exact hvalues
  · exact hcounts
  · exact hcounted
  · exact hfits
  · exact hindex
  · intro hbusy k hk
    exact (congrArg contFlag (hbuf.memRead hbusy (hindex hbusy) hk)).trans (hcontinued hbusy k hk)
  · intro hbusy
    rw [hmag hbusy]
    exact hgathered hbusy
  · intro hbusy
    rw [hmag hbusy]
    exact hoverflow hbusy

theorem CrcuInv.transfer {s t : State} (h : CrcuInv s) (hregs : sameUnit .crcu s t) (hbuf : sameBuffer .crcu s t) :
    CrcuInv t := by
  obtain ⟨hstatus, hresults, hfits, hindex, hworking⟩ := h
  rw [sameUnit] at hregs
  have hbytes : s.crcu.busy = true → bytesAt t.mem s.crcu.inp s.crcu.i = bytesAt s.mem s.crcu.inp s.crcu.i :=
    fun hbusy => bytesAt_congr fun _ hk => hbuf.memRead hbusy (hindex hbusy) hk
  constructor <;> rw [hregs]
  · exact hstatus
  · exact hresults
  · exact hfits
  · exact hindex
  · intro hbusy
    rw [hbytes hbusy]
    exact hworking hbusy

theorem CrcmInv.transfer {s t : State} (h : CrcmInv s) (hregs : sameUnit .crcm s t) : CrcmInv t := by
  obtain ⟨hstatus, hresults, hleft, hworking⟩ := h
  rw [sameUnit] at hregs
  constructor <;> rw [hregs] <;> assumption

/-- A unit's clause speaks of its registers and, in flight, of its buffer only. -/
theorem unitInv_transfer {u : UnitId} {s t : State} (h : unitInv u s) (hregs : sameUnit u s t)
    (hbuf : sameBuffer u s t) : unitInv u t := by
  cases u
  · exact VencInv.transfer h hregs hbuf
  · exact VdecInv.transfer h hregs hbuf
  · exact CrcuInv.transfer h hregs hbuf
  · exact CrcmInv.transfer h hregs

/-- The invariant is kept when one unit changes: its own clause holds after, no other unit's buffer in flight is touched, and its
buffer, if it is in flight after, lies apart from the others. -/
theorem Invariant.of_unit_change {u : UnitId} {s t : State} (h : Invariant s) (hsame : sameBut u s t)
    (hwf : Memory.wf t.mem = true) (hown : unitInv u t) (hbuf : ∀ w, w ≠ u → sameBuffer w s t)
    (hapart : busyOf u t = true → ∀ w, w ≠ u → busyOf w s = true →
      overlap (bufferOf u t).1 (bufferOf u t).2 (bufferOf w s).1 (bufferOf w s).2 = false) : Invariant t := by
  have hunit (w : UnitId) : unitInv w t := by
    by_cases hw : w = u
    · exact hw ▸ hown
    · exact unitInv_transfer (h.unit w) (hsame.unit hw) (hbuf w hw)
  refine ⟨hwf, hunit .venc, hunit .vdec, hunit .crcu, hunit .crcm, fun v w hvw hv hw => ?_, ?_⟩
  · by_cases hvu : v = u
    · subst hvu
      have hsw := hsame.unit hvw.symm
      rw [hsw.bufferOf]
      exact hapart hv w hvw.symm (hsw.busyOf ▸ hw)
    · have hsv := hsame.unit hvu
      by_cases hwu : w = u
      · subst hwu
        rw [overlap_comm, hsv.bufferOf]
        exact hapart hw v hvu (hsv.busyOf ▸ hv)
      · have hsw := hsame.unit hwu
        rw [hsv.bufferOf, hsw.bufferOf]
        exact h.disjoint v w hvw (hsv.busyOf ▸ hv) (hsw.busyOf ▸ hw)
  · rw [hsame.agenda]
    exact h.pending

/-- The invariant is kept when no unit changes and no buffer in flight is touched. -/
theorem Invariant.of_same_units {s t : State} (h : Invariant s) (hsame : ∀ u, sameUnit u s t)
    (hwf : Memory.wf t.mem = true) (hbuf : ∀ u, sameBuffer u s t)
    (hpending : ∀ v ∈ t.agenda, moveWellFormed v = true) : Invariant t := by
  have hunit (u : UnitId) : unitInv u t := unitInv_transfer (h.unit u) (hsame u) (hbuf u)
  refine ⟨hwf, hunit .venc, hunit .vdec, hunit .crcu, hunit .crcm, fun u w huw hu hw => ?_, hpending⟩
  rw [(hsame u).bufferOf, (hsame w).bufferOf]
  exact h.disjoint u w huw ((hsame u).busyOf ▸ hu) ((hsame w).busyOf ▸ hw)

/-! ### Idle units without results -/

/-- Zero fits every build's count registers (00_scope.md R11). -/
theorem fitsSize_zero : fitsSize 0 = true := by simp [fitsSize]

theorem vencInv_of_default {s : State} (h : s.venc = {}) : VencInv s := by
  constructor <;> simp [h, fitsSize_zero]

theorem vdecInv_of_default {s : State} (h : s.vdec = {}) : VdecInv s := by
  constructor <;> simp [h, fitsSize_zero]

theorem crcuInv_of_default {s : State} (h : s.crcu = {}) : CrcuInv s := by
  constructor <;> simp [h, fitsSize_zero]

theorem crcmInv_of_default {s : State} (h : s.crcm = {}) : CrcmInv s := by
  constructor <;> simp [h]

/-- The invariant holds of a state whose units are all as at reset. -/
theorem invariant_of_default_units {s : State} (hvenc : s.venc = {}) (hvdec : s.vdec = {}) (hcrcu : s.crcu = {})
    (hcrcm : s.crcm = {}) (hwf : Memory.wf s.mem = true) (hpending : ∀ v ∈ s.agenda, moveWellFormed v = true) :
    Invariant s := by
  refine ⟨hwf, vencInv_of_default hvenc, vdecInv_of_default hvdec, crcuInv_of_default hcrcu, crcmInv_of_default hcrcm,
    fun u w _ hbusy _ => ?_, hpending⟩
  cases u <;> simp [busyOf, hvenc, hvdec, hcrcu, hcrcm] at hbusy

/-- Settles O43: at reset every unit is at its default, and an idle unit without results meets its clause. -/
theorem resetMeetsInvariant : Obligations.ResetMeetsInvariant :=
  invariant_of_default_units rfl rfl rfl rfl reset_memory_wf nofun

/-! ### The steps of VENC -/

theorem byteAddress_ne (base : Nat) {k i : Nat} (h : k ≠ i) : byteAddress base k ≠ byteAddress base i :=
  fun heq => h (Nat.add_left_cancel heq)

theorem vencInv_vencDone {s : State} (h : VencInv s) (hbusy : s.venc.busy = true) (hi : 0 < s.venc.i) :
    VencInv (vencDone s) where
  status := by simp [vencDone, mayWriteStatus]
  results := by simp [vencDone]
  counted := by
    obtain ⟨-, hlen⟩ := h.index hbusy
    simpa [vencDone] using ⟨hi, hlen.trans (canonicalLength_le_five _)⟩
  fits := h.fits
  index := nofun
  left := nofun
  written := nofun

/-- A write step is due only where the canonical sequence has a byte. -/
theorem VencInv.lt_canonicalLength {s : State} (h : VencInv s) (hbusy : s.venc.busy = true)
    (hmore : ¬(0 < s.venc.i ∧ s.venc.word = 0#32)) : s.venc.i < canonicalLength s.venc.value := by
  rw [lt_canonicalLength_iff, ← h.left hbusy, ← Nat.le_zero, ← Nat.not_lt]
  tauto

theorem vencInv_vencWrite {s : State} (h : VencInv s) (hbusy : s.venc.busy = true)
    (hmore : ¬(0 < s.venc.i ∧ s.venc.word = 0#32)) (hroom : s.venc.i < s.venc.capacity) : VencInv (vencWrite s) where
  status := h.status
  results := h.results
  counted := h.counted
  fits := h.fits
  index _ := ⟨hroom, h.lt_canonicalLength hbusy hmore⟩
  left _ := by
    change s.venc.word >>> 7 = s.venc.value >>> (7 * (s.venc.i + 1))
    rw [h.left hbusy, ← BitVec.shiftRight_add, Nat.mul_succ]
  written _ k hk := by
    change memRead (memWrite s.mem (byteAddress s.venc.out s.venc.i) (nextVarintByte s.venc.word))
      (byteAddress s.venc.out k) = canonicalByte s.venc.value k
    obtain hlt | rfl := Nat.lt_succ_iff_lt_or_eq.mp hk
    · rw [memRead_memWrite_other _ _ (byteAddress_ne _ hlt.ne)]
      exact h.written hbusy k hlt
    · rw [memRead_memWrite_same, h.left hbusy, nextVarintByte_eq_canonicalByte]

/-! ### The steps of VDEC -/

theorem mayWriteStatus_reported {k : ErrorKind} (h : k ≠ .capacityViolation) :
    mayWriteStatus .vdec (reportedStatus k) = true := by
  cases k with
  | corrupt => rfl
  | truncated => cases hu : Config.errUnify <;> simp [reportedStatus, hu, mayWriteStatus]
  | capacityViolation => exact absurd rfl h

theorem reportedStatus_ne_ok (k : ErrorKind) : reportedStatus k ≠ .ok := by
  cases k with
  | corrupt => decide
  | truncated => cases hu : Config.errUnify <;> simp [reportedStatus, hu]
  | capacityViolation => decide

theorem vdecInv_vdecFail {k : ErrorKind} {s : State} (hk : k ≠ .capacityViolation) (hfits : fitsSize s.vdec.size = true) :
    VdecInv (vdecFail k s) where
  status := by simpa [vdecFail] using mayWriteStatus_reported hk
  values := by simpa [vdecFail] using reportedStatus_ne_ok k
  counts := by simpa [vdecFail] using reportedStatus_ne_ok k
  counted := nofun
  fits := hfits
  index := nofun
  continued := nofun
  gathered := nofun
  overflow := nofun

theorem vdecInv_vdecDone {s : State} (hfits : fitsSize s.vdec.size = true) : VdecInv (vdecDone s) where
  status := by simp [vdecDone, mayWriteStatus]
  values := by simp [vdecDone]
  counts := by simp [vdecDone]
  counted := by simp [vdecDone]
  fits := hfits
  index := nofun
  continued := nofun
  gathered := nofun
  overflow := nofun

theorem vdecInv_vdecContinue {s : State} (h : VdecInv s) (hbusy : s.vdec.busy = true) (hdue : s.vdec.i < s.vdec.size)
    (hflag : contFlag (vdecByte s) = true) : VdecInv (vdecContinue (payloadOf (vdecByte s)) s) where
  status := h.status
  values := h.values
  counts := h.counts
  counted := h.counted
  fits := h.fits
  index _ := hdue
  continued _ k hk := by
    obtain hlt | rfl := Nat.lt_succ_iff_lt_or_eq.mp hk
    · exact h.continued hbusy k hlt
    · exact hflag
  gathered _ := by
    change gatherAcc s.vdec.i s.vdec.acc (payloadOf (vdecByte s)) =
      BitVec.ofNat 32 (magnitude s.mem s.vdec.inp (s.vdec.i + 1))
    rw [h.gathered hbusy, gatherAcc_ofNat _ (magnitude_lt ..), magnitude_succ]
    rfl
  overflow _ := by
    change gatherOvf s.vdec.i s.vdec.ovf (payloadOf (vdecByte s)) = true ↔
      2 ^ 32 ≤ magnitude s.mem s.vdec.inp (s.vdec.i + 1)
    rw [gatherOvf_iff _ (magnitude_lt ..) (h.overflow hbusy), magnitude_succ]
    rfl

/-! ### The steps of CRCU -/

theorem crcuInv_crcuDone {s : State} (hfits : fitsSize s.crcu.size = true) : CrcuInv (crcuDone s) where
  status := by simp [crcuDone, mayWriteStatus]
  results := by simp [crcuDone]
  fits := hfits
  index := nofun
  working := nofun

theorem crcuInv_crcuRead {s : State} (h : CrcuInv s) (hbusy : s.crcu.busy = true) (hdue : s.crcu.i < s.crcu.size) :
    CrcuInv (crcuRead s) where
  status := h.status
  results := h.results
  fits := h.fits
  index _ := hdue
  working _ := by
    change bytestep s.crcu.crc (readIndex s s.crcu.inp s.crcu.i) =
      crcAfter (condition s.crcu.accIn) (bytesAt s.mem s.crcu.inp (s.crcu.i + 1))
    rw [bytesAt_succ, crcAfter_append_byte, ← h.working hbusy]
    rfl

/-! ### The steps of CRCM -/

theorem crcmInv_crcmDone (s : State) : CrcmInv (crcmDone s) where
  status := by simp [crcmDone, mayWriteStatus]
  results := by simp [crcmDone]
  left := nofun
  working := nofun

theorem bitsPerStep_dvd (v : CrcVariant) : v.bitsPerStep ∣ 32 := by cases v <;> decide

theorem bitsPerStep_le (v : CrcVariant) : v.bitsPerStep ≤ 8 := by cases v <;> decide

/-- A step of any variant takes its bit steps off a count that holds them (43_crc32c_ring_multiply.md R147). -/
theorem toNat_sub_bitsPerStep {k : BitVec 6} {v : CrcVariant} (h : v.bitsPerStep ≤ k.toNat) :
    (k - BitVec.ofNat 6 v.bitsPerStep).toNat = k.toNat - v.bitsPerStep := by
  have hv : v.bitsPerStep < 2 ^ 6 := (bitsPerStep_le v).trans_lt (by decide)
  have hmod : (BitVec.ofNat 6 v.bitsPerStep).toNat = v.bitsPerStep := by rw [BitVec.toNat_ofNat, Nat.mod_eq_of_lt hv]
  rw [BitVec.toNat_sub_of_le (by rwa [BitVec.le_def, hmod]), hmod]

theorem crcmInv_crcmReduceStep {s : State} (h : CrcmInv s) (hbusy : s.crcm.busy = true) (hleft : s.crcm.k ≠ 0#6) :
    CrcmInv (crcmReduceStep s) := by
  obtain ⟨hle, hdvd⟩ := h.left hbusy
  have hpos : 0 < s.crcm.k.toNat := Nat.pos_of_ne_zero fun h0 => hleft (BitVec.eq_of_toNat_eq h0)
  have hbits := Nat.le_of_dvd hpos hdvd
  have hk : (crcmReduceStep s).crcm.k.toNat = s.crcm.k.toNat - Config.crcVariant.bitsPerStep := toNat_sub_bitsPerStep hbits
  refine ⟨h.status, h.results, fun _ => ?_, fun _ => ?_⟩
  · rw [hk]
    exact ⟨(Nat.sub_le ..).trans hle, Nat.dvd_sub hdvd dvd_rfl⟩
  · rw [hk]
    change (reduceStep .bitwise)^[_] (reduceStep Config.crcVariant s.crcm.z) = _
    rw [reduceStep_eq_iterate, ← Function.iterate_add_apply, Nat.sub_add_cancel hbits]
    exact h.working hbusy

/-! ### A step of any unit -/

theorem UnitStep.unitInv {u : UnitId} {s t : State} (h : UnitStep u s t) (hinv : unitInv u s) : unitInv u t := by
  cases h with
  | idle => exact hinv
  | vencDone hbusy hdone => exact vencInv_vencDone hinv hbusy hdone.1
  | vencWrite hbusy hmore hroom => exact vencInv_vencWrite hinv hbusy hmore hroom
  | vdecContinue hbusy hdue hflag => exact vdecInv_vdecContinue hinv hbusy hdue hflag
  | vdecDone =>
    have hfits : fitsSize s.vdec.size = true := VdecInv.fits hinv
    exact vdecInv_vdecDone hfits
  | vdecCorrupt =>
    have hfits : fitsSize s.vdec.size = true := VdecInv.fits hinv
    exact vdecInv_vdecFail (by decide) hfits
  | vdecTruncated => exact vdecInv_vdecFail (by decide) (VdecInv.fits hinv)
  | crcuRead hbusy hdue => exact crcuInv_crcuRead hinv hbusy hdue
  | crcuDone => exact crcuInv_crcuDone (CrcuInv.fits hinv)
  | crcmReduce hbusy hleft => exact crcmInv_crcmReduceStep hinv hbusy hleft
  | crcmDone => exact crcmInv_crcmDone _

/-- A unit's step keeps the buffer its operation names. -/
theorem sameOperands.bufferOf {s t : State} (h : sameOperands s t) (u : UnitId) :
    Machine.bufferOf u t = Machine.bufferOf u s := by
  obtain ⟨⟨-, hcap, hout⟩, ⟨hvsize, hvinp⟩, ⟨-, hcsize, hcinp⟩, -⟩ := h
  cases u <;> simp [Machine.bufferOf, hcap, hout, hvsize, hvinp, hcsize, hcinp]

theorem UnitStep.busyOf {u : UnitId} {s t : State} (h : UnitStep u s t) (ht : busyOf u t = true) :
    Machine.busyOf u s = true := by
  cases h <;> assumption

theorem unitStep_keeps_invariant {u : UnitId} {s t : State} (h : Invariant s) (hstep : UnitStep u s t) :
    Invariant t := by
  refine h.of_unit_change hstep.sameBut (hstep.memory_wf h.memory) (hstep.unitInv (h.unit u)) (fun w hw hbusy a ha => ?_)
    (fun hbusy w hw hbusyw => ?_)
  · refine hstep.memRead ?_
    rintro ⟨rfl, hvenc, -, hroom, rfl⟩
    have hdisj := h.disjoint w .venc hw hbusy hvenc
    rw [← Bool.not_eq_true, overlap_iff] at hdisj
    exact hdisj ⟨_, ha, inBuffer_iff.mpr ⟨Nat.le_add_right .., Nat.add_lt_add_left hroom _⟩⟩
  · rw [hstep.sameOperands.bufferOf]
    exact h.disjoint u w hw.symm (hstep.busyOf hbusy) hbusyw

theorem tick_keeps_invariant {u : UnitId} {s t : State} (h : Invariant s) (htick : tick u s = .next t) : Invariant t :=
  unitStep_keeps_invariant h (unitStep_of_tick htick)

theorem tickTimes_keeps_invariant {u : UnitId} {n : Nat} {s t : State} (h : Invariant s)
    (hticks : tickTimes u n s = .next t) : Invariant t := by
  induction n generalizing s with
  | zero =>
    cases hticks
    exact h
  | succ n ih =>
    obtain ⟨s', hfirst, hrest⟩ := andThen_eq_next hticks
    exact ih (tick_keeps_invariant h hfirst) hrest

/-! ### START -/

theorem beginOp_eq_next {u : UnitId} {base n : Nat} {s started t : State} (h : beginOp u base n s started = .next t) :
    canStart u base n s = true ∧ t = started := by
  obtain ⟨-, href⟩ | ⟨-, -, href⟩ | ⟨hstart, hnext⟩ := beginOp_cases u base n s started
  · cases href.symm.trans h
  · cases href.symm.trans h
  · cases hnext.symm.trans h
    exact ⟨hstart, rfl⟩

/-- A started unit keeps the invariant: START checked that its buffer lies apart from those in flight. -/
theorem Invariant.of_start {u : UnitId} {base n : Nat} {s t : State} (h : Invariant s) (hstart : canStart u base n s = true)
    (hsame : sameBut u s t) (hmem : t.mem = s.mem) (hown : unitInv u t) (hbuf : bufferOf u t = (base, n)) :
    Invariant t := by
  refine h.of_unit_change hsame (hmem ▸ h.memory) hown (fun w _ => sameBuffer_of_mem_eq hmem) (fun _ w hw hbusy => ?_)
  obtain ⟨-, hclash⟩ := canStart_iff.mp hstart
  rw [← Bool.not_eq_true, clashes_iff] at hclash
  rw [hbuf, ← Bool.not_eq_true]
  exact fun hover => hclash ⟨w, hw, hbusy, hover⟩

theorem vencInv_vencStarted {s : State} (h : VencInv s) (value : Word) {capacity : Nat} (out : Nat)
    (hfits : fitsSize capacity = true) : VencInv (vencStarted value capacity out s) where
  status := h.status
  results := h.results
  counted := h.counted
  fits := hfits
  index _ := ⟨Nat.zero_le _, Nat.zero_le _⟩
  left _ := by simp [vencStarted]
  written _ k hk := absurd hk (Nat.not_lt_zero k)

theorem vdecInv_vdecStarted {s : State} (h : VdecInv s) {size : Nat} (inp : Nat) (hfits : fitsSize size = true) :
    VdecInv (vdecStarted size inp s) where
  status := h.status
  values := h.values
  counts := h.counts
  counted := h.counted
  fits := hfits
  index _ := Nat.zero_le _
  continued _ k hk := absurd hk (Nat.not_lt_zero k)
  gathered _ := rfl
  overflow _ := by simp [vdecStarted]

theorem crcuInv_crcuStarted {s : State} (h : CrcuInv s) (accIn : Word) {size : Nat} (inp : Nat)
    (hfits : fitsSize size = true) : CrcuInv (crcuStarted accIn size inp s) where
  status := h.status
  results := h.results
  fits := hfits
  index _ := Nat.zero_le _
  working _ := rfl

theorem crcmInv_crcmStarted {s : State} (h : CrcmInv s) (a b : Word) : CrcmInv (crcmStarted a b s) where
  status := h.status
  results := h.results
  left _ := ⟨le_rfl, bitsPerStep_dvd _⟩
  working _ := rfl

theorem startVenc_keeps_invariant {value : Word} {capacity out : Nat} {s t : State} (h : Invariant s)
    (hfits : fitsSize capacity = true) (hstart : startVenc value capacity out s = .next t) : Invariant t := by
  obtain ⟨hcan, rfl⟩ := beginOp_eq_next hstart
  exact h.of_start hcan (sameBut_setVenc ..) rfl (vencInv_vencStarted h.venc value out hfits) rfl

theorem startVdec_keeps_invariant {size inp : Nat} {s t : State} (h : Invariant s)
    (hfits : fitsSize size = true) (hstart : startVdec size inp s = .next t) : Invariant t := by
  obtain ⟨hcan, rfl⟩ := beginOp_eq_next hstart
  exact h.of_start hcan (sameBut_setVdec ..) rfl (vdecInv_vdecStarted h.vdec inp hfits) rfl

theorem startCrcu_keeps_invariant {accIn : Word} {size inp : Nat} {s t : State} (h : Invariant s)
    (hfits : fitsSize size = true) (hstart : startCrcu accIn size inp s = .next t) : Invariant t := by
  obtain ⟨hcan, rfl⟩ := beginOp_eq_next hstart
  exact h.of_start hcan (sameBut_setCrcu ..) rfl (crcuInv_crcuStarted h.crcu accIn inp hfits) rfl

theorem startCrcm_keeps_invariant {a b : Word} {s t : State} (h : Invariant s)
    (hstart : startCrcm a b s = .next t) : Invariant t := by
  obtain ⟨hcan, rfl⟩ := beginOp_eq_next hstart
  exact h.of_start hcan (sameBut_setCrcm ..) rfl (crcmInv_crcmStarted h.crcm a b) rfl

theorem startOnly_keeps_invariant {i : Instr} {s t : State} (h : Invariant s) (hi : i.wellFormed = true)
    (hstart : startOnly i s = .next t) : Invariant t := by
  cases i with
  | venc value capacity out => exact startVenc_keeps_invariant h hi hstart
  | vdec size inp => exact startVdec_keeps_invariant h hi hstart
  | crcu accIn size inp => exact startCrcu_keeps_invariant h hi hstart
  | crcm a b => exact startCrcm_keeps_invariant h hstart
  | crc32c size inp => exact startCrcu_keeps_invariant h hi hstart
  | varintCont p => cases hstart
  | varintTerm p => cases hstart

/-! ### A whole operation as START and steps of its unit -/

theorem tickTimes_succ_of_tick {u : UnitId} {n : Nat} {s s' : State} (h : tick u s = .next s') :
    tickTimes u (n + 1) s = tickTimes u n s' := by
  rw [tickTimes, h, andThen_next]

theorem tickTimes_one (u : UnitId) (s : State) : tickTimes u 1 s = tick u s := by
  rw [tickTimes]
  cases tick u s <;> rfl

theorem tick_vencDone {s : State} (hbusy : s.venc.busy = true) (hdone : 0 < s.venc.i ∧ s.venc.word = 0#32) :
    tick .venc s = .next (vencDone s) := by
  rw [tick_venc hbusy, tickVenc, if_pos hdone]

theorem tick_vencWrite {s : State} (hbusy : s.venc.busy = true) (hmore : ¬(0 < s.venc.i ∧ s.venc.word = 0#32))
    (hroom : s.venc.i < s.venc.capacity) : tick .venc s = .next (vencWrite s) := by
  rw [tick_venc hbusy, tickVenc, if_neg hmore, if_pos hroom]

theorem tick_vencFull {s : State} (hbusy : s.venc.busy = true) (hmore : ¬(0 < s.venc.i ∧ s.venc.word = 0#32))
    (hfull : s.venc.capacity ≤ s.venc.i) : tick .venc s = endWithError .capacityViolation s := by
  rw [tick_venc hbusy, tickVenc, if_neg hmore, if_neg (Nat.not_lt.mpr hfull)]

/-- The rest of a VENC in flight is some number of its steps (40_varint_encoder.md R94). -/
theorem vencLoop_eq_tickTimes (n : Nat) (s : State) (hbusy : s.venc.busy = true)
    (hmore : ¬(0 < s.venc.i ∧ s.venc.word = 0#32)) (hn : s.venc.i + n = s.venc.capacity) :
    ∃ k, tickTimes .venc k s = vencLoop n s := by
  induction n generalizing s with
  | zero => exact ⟨1, (tickTimes_one ..).trans (tick_vencFull hbusy hmore hn.ge)⟩
  | succ n ih =>
    have hwrite := tick_vencWrite hbusy hmore (by omega)
    rw [vencLoop]
    by_cases hlast : (vencWrite s).venc.word = 0#32
    · refine ⟨2, ?_⟩
      rw [if_pos hlast, tickTimes_succ_of_tick hwrite, tickTimes_one]
      exact tick_vencDone hbusy ⟨Nat.succ_pos _, hlast⟩
    · obtain ⟨k, hk⟩ := ih (vencWrite s) hbusy (fun h => hlast h.2) ((Nat.succ_add_eq_add_succ ..).trans hn)
      exact ⟨k + 1, by rw [if_neg hlast, tickTimes_succ_of_tick hwrite, hk]⟩

/-- The rest of a VDEC in flight is some number of its steps (41_varint_decoder.md R106). -/
theorem vdecLoop_eq_tickTimes (n : Nat) (s : State) (hbusy : s.vdec.busy = true) (hn : s.vdec.i + n = s.vdec.size) :
    ∃ k, tickTimes .vdec k s = vdecLoop n s := by
  induction n generalizing s with
  | zero => exact ⟨1, (tickTimes_one ..).trans (tick_vdec_used_up hbusy hn.ge)⟩
  | succ n ih =>
    have hdue : s.vdec.i < s.vdec.size := by omega
    cases hflag : contFlag (vdecByte s)
    · exact ⟨1, (tickTimes_one ..).trans
        ((tick_vdec_terminal hbusy hdue hflag).trans (if_neg (Bool.eq_false_iff.mp hflag)).symm)⟩
    · obtain ⟨k, hk⟩ := ih (vdecContinue (payloadOf (vdecByte s)) s) hbusy ((Nat.succ_add_eq_add_succ ..).trans hn)
      exact ⟨k + 1, (tickTimes_succ_of_tick (tick_vdec_continuation hbusy hdue hflag)).trans (hk.trans (if_pos hflag).symm)⟩

/-- The rest of a CRCU in flight is a step for each byte left and the DONE (42_crc32c_core.md R130). -/
theorem tickTimes_crcu_eq_crcuLoop (n : Nat) (s : State) (hbusy : s.crcu.busy = true)
    (hn : s.crcu.i + n = s.crcu.size) : tickTimes .crcu (n + 1) s = .next (crcuLoop n s) := by
  induction n generalizing s with
  | zero => rw [tickTimes_one, tick_crcu hbusy, tickCrcu, if_neg (by omega), crcuLoop]
  | succ n ih =>
    have hread : tick .crcu s = .next (crcuRead s) := by rw [tick_crcu hbusy, tickCrcu, if_pos (by omega)]
    rw [tickTimes_succ_of_tick hread]
    exact ih (crcuRead s) hbusy ((Nat.succ_add_eq_add_succ ..).trans hn)

theorem execVenc_keeps_invariant {value : Word} {capacity out : Nat} {s t : State} (h : Invariant s)
    (hfits : fitsSize capacity = true) (hexec : execVenc value capacity out s = .next t) : Invariant t := by
  obtain ⟨s', hstart, hloop⟩ := andThen_eq_next hexec
  have hinv := startVenc_keeps_invariant h hfits hstart
  obtain ⟨-, rfl⟩ := beginOp_eq_next hstart
  obtain ⟨k, hk⟩ := vencLoop_eq_tickTimes capacity (vencStarted value capacity out s) rfl
    (fun hdone => absurd hdone.1 (Nat.lt_irrefl 0)) (Nat.zero_add _)
  exact tickTimes_keeps_invariant hinv (hk.trans hloop)

theorem execVdec_keeps_invariant {size inp : Nat} {s t : State} (h : Invariant s) (hfits : fitsSize size = true)
    (hexec : execVdec size inp s = .next t) : Invariant t := by
  obtain ⟨s', hstart, hloop⟩ := andThen_eq_next hexec
  have hinv := startVdec_keeps_invariant h hfits hstart
  obtain ⟨-, rfl⟩ := beginOp_eq_next hstart
  obtain ⟨k, hk⟩ := vdecLoop_eq_tickTimes size (vdecStarted size inp s) rfl (Nat.zero_add _)
  exact tickTimes_keeps_invariant hinv (hk.trans hloop)

theorem execCrcu_keeps_invariant {accIn : Word} {size inp : Nat} {s t : State} (h : Invariant s)
    (hfits : fitsSize size = true) (hexec : execCrcu accIn size inp s = .next t) : Invariant t := by
  obtain ⟨s', hstart, hloop⟩ := andThen_eq_next hexec
  have hinv := startCrcu_keeps_invariant h hfits hstart
  obtain ⟨-, rfl⟩ := beginOp_eq_next hstart
  exact tickTimes_keeps_invariant hinv
    ((tickTimes_crcu_eq_crcuLoop size (crcuStarted accIn size inp s) rfl (Nat.zero_add _)).trans hloop)

/-- CRCM's clause of an idle unit asks nothing of the product, so the whole reduction need not be followed step by step. -/
theorem execCrcm_keeps_invariant {a b : Word} {s t : State} (h : Invariant s) (hexec : execCrcm a b s = .next t) :
    Invariant t := by
  obtain ⟨s', hstart, hdone⟩ := andThen_eq_next hexec
  obtain ⟨-, rfl⟩ := beginOp_eq_next hstart
  cases hdone
  exact h.of_unit_change (sameBut_setCrcm s _) h.memory (crcmInv_crcmDone _) (fun w _ => sameBuffer_of_mem_eq rfl) nofun

/-! ### A move of the agenda -/

/-- A START event names one of the four operations, with counts it brings (30_encoding.md R75). -/
theorem call_keeps_invariant {e : StartEvent} {s t : State} (h : Invariant s) (he : e.wellFormed = true)
    (hexec : exec (decodeStart e) s = .next t) : Invariant t := by
  obtain ⟨hcapacity, hsize⟩ := Bool.and_eq_true_iff.mp he
  unfold decodeStart at hexec
  split at hexec
  · exact execVenc_keeps_invariant h hcapacity hexec
  · exact execVdec_keeps_invariant h hsize hexec
  · exact execCrcu_keeps_invariant h hsize hexec
  · exact execCrcm_keeps_invariant h hexec

theorem decodeStart_wellFormed {e : StartEvent} (he : e.wellFormed = true) : (decodeStart e).wellFormed = true := by
  obtain ⟨hcapacity, hsize⟩ := Bool.and_eq_true_iff.mp he
  unfold decodeStart
  split
  · exact hcapacity
  · exact hsize
  · exact hsize
  · rfl

theorem Invariant.setAgenda {s : State} (h : Invariant s) {g : List Move} (hg : ∀ v ∈ g, moveWellFormed v = true) :
    Invariant (s.setAgenda g) :=
  h.of_same_units (fun u => sameUnit_setAgenda u s g) h.memory (fun _ => sameBuffer_of_mem_eq rfl) hg

theorem Invariant.setObserved {s : State} (h : Invariant s) (r : Option Reading) : Invariant (s.setObserved r) :=
  h.of_same_units (fun u => sameUnit_setObserved u s r) h.memory (fun _ => sameBuffer_of_mem_eq rfl) h.pending

theorem readResult_keeps_invariant {r : ResultReg} {s t : State} (h : Invariant s) (hread : readResult r s = .next t) :
    Invariant t := by
  obtain ⟨v, -, -, hnext⟩ | ⟨-, hfault⟩ := readResult_cases r s
  · cases hnext.symm.trans hread
    exact h.setObserved _
  · cases hfault.symm.trans hread

theorem hostLoad_keeps_invariant {a : Nat} {s t : State} (h : Invariant s) (hload : hostLoad a s = .next t) :
    Invariant t := by
  obtain ⟨-, -, hrefused⟩ | ⟨-, hnext⟩ := hostLoad_cases a s
  · cases hrefused.symm.trans hload
  · cases hnext.symm.trans hload
    exact h.setObserved _

/-- A host write reaches no buffer in flight (20_memory.md R53). -/
theorem hostStore_keeps_invariant {a : Nat} {d : Byte} {s t : State} (h : Invariant s)
    (hstore : hostStore a d s = .next t) : Invariant t := by
  obtain ⟨w, -, -, hrefused⟩ | ⟨hfree, hnext⟩ := hostStore_cases a d s
  · cases hrefused.symm.trans hstore
  · cases hnext.symm.trans hstore
    refine h.of_same_units (fun u => sameUnit_storeByte u s a d) (memWrite_keeps_wf _ _ _ h.memory) (fun u hbusy b hb => ?_)
      h.pending
    refine memRead_memWrite_other _ _ ?_
    rintro rfl
    exact Bool.false_ne_true ((hfree u hbusy).symm.trans hb)

theorem resetBlock_keeps_invariant {s : State} (h : Invariant s) : Invariant (resetBlock s) := by
  obtain ⟨hvenc, hvdec, hcrcu, hcrcm, hagenda, -⟩ := resetBlock_spec s
  exact invariant_of_default_units hvenc hvdec hcrcu hcrcm (resetBlock_keeps_memory_wf s h.memory) (hagenda ▸ h.pending)

theorem move_keeps_invariant {v : Move} {s t : State} (h : Invariant s) (hv : moveWellFormed v = true)
    (hmove : perform (moveAction v s) = .next t) : Invariant t := by
  cases v with
  | call e => exact call_keeps_invariant h hv hmove
  | start e => exact startOnly_keeps_invariant h (decodeStart_wellFormed hv) hmove
  | tick u => exact tick_keeps_invariant h hmove
  | readResult r => exact readResult_keeps_invariant h hmove
  | load a => exact hostLoad_keeps_invariant h hmove
  | store a d => exact hostStore_keeps_invariant h hmove
  | reset =>
    cases hmove
    exact resetBlock_keeps_invariant h

/-- Settles O44, move by move: a unit's step by `UnitStep`, a whole operation as its START and the steps of its unit. -/
theorem stepKeepsInvariant : Obligations.StepKeepsInvariant := by
  intro s t h hstep
  cases hagenda : s.agenda with
  | nil =>
    obtain ⟨u, htick⟩ | hidle := step_of_no_agenda hagenda
    · exact tick_keeps_invariant h (htick.symm.trans hstep)
    · cases hidle.symm.trans hstep
      exact h
  | cons v rest =>
    have hpending : ∀ w ∈ v :: rest, moveWellFormed w = true := hagenda ▸ h.pending
    rw [step_of_agenda hagenda] at hstep
    exact move_keeps_invariant (h.setAgenda fun w hw => hpending w (List.mem_cons_of_mem v hw))
      (hpending v List.mem_cons_self) hstep

end Sys2Proof.Machine

/-! # Proofs of the memory family: buffers at START and the host's accesses -/

namespace Sys2Proof.Machine

/-! ### Buffers at START -/

/-- A run of bytes clashes when one of its addresses lies in the buffer of another unit in flight (20_memory.md R53). -/
theorem clashes_iff_exists_address {u : UnitId} {base n : Nat} {s : State} :
    clashes u base n s = true ↔
      ∃ w, w ≠ u ∧ busyOf w s = true ∧
        ∃ a, (base ≤ a ∧ a < base + n) ∧ (bufferOf w s).1 ≤ a ∧ a < (bufferOf w s).1 + (bufferOf w s).2 := by
  simp only [clashes_iff, overlap_iff, inBuffer_iff]

/-- Settles O32: the clash that `canStart` excludes, as an address in both buffers. -/
theorem launchPremises : Obligations.LaunchPremises := by
  intro u base n s
  rw [canStart_iff, ← Bool.not_eq_true (clashes u base n s), clashes_iff_exists_address]
  refine and_congr_right fun _ => ⟨fun h w hw hbusy a hlo hhi hin => h ⟨w, hw, hbusy, a, ⟨hlo, hhi⟩, hin⟩, ?_⟩
  rintro h ⟨w, hw, hbusy, a, ⟨hlo, hhi⟩, hin⟩
  exact h w hw hbusy a hlo hhi hin

theorem beginOp_of_clashes {u : UnitId} {base n : Nat} {s started : State} (hidle : busyOf u s = false)
    (hclash : clashes u base n s = true) : beginOp u base n s started = .refused .bufferConflict := by
  simp [beginOp, hidle, hclash]

/-- Settles O35: START refuses, and the whole operation goes no further than its START. -/
theorem startOnBufferInUseIsRefused : Obligations.StartOnBufferInUseIsRefused := by
  intro u w a base n s hw hidle hbusy hlo hhi hinlo hinhi
  have hclash : clashes u base n s = true :=
    clashes_iff_exists_address.mpr ⟨w, hw, hbusy, a, ⟨hlo, hhi⟩, hinlo, hinhi⟩
  have hstart (started : State) : beginOp u base n s started = .refused .bufferConflict :=
    beginOp_of_clashes hidle hclash
  have hwhole (started : State) (f : State → Result) :
      andThen (beginOp u base n s started) f = .refused .bufferConflict := by
    rw [hstart, andThen_refused]
  refine ⟨?_, ?_, ?_⟩ <;> rintro rfl
  · exact fun v => ⟨hstart _, hwhole _ _⟩
  · exact ⟨hstart _, hwhole _ _⟩
  · exact ⟨fun c => ⟨hstart _, hwhole _ _⟩, hstart _, hwhole _ _⟩

/-! ### The host's accesses -/

theorem hostLoad_of_free {a : Nat} {s : State}
    (hfree : ¬(s.venc.busy = true ∧ s.venc.out ≤ a ∧ a < s.venc.out + s.venc.capacity)) :
    hostLoad a s = .next (s.setObserved (some (.byte (memRead s.mem a)))) := by
  obtain ⟨hbusy, hin, -⟩ | ⟨-, hnext⟩ := hostLoad_cases a s
  · exact absurd ⟨hbusy, inBuffer_iff.mp hin⟩ hfree
  · exact hnext

theorem hostLoad_of_output {a : Nat} {s : State} (hbusy : s.venc.busy = true)
    (hin : s.venc.out ≤ a ∧ a < s.venc.out + s.venc.capacity) : hostLoad a s = .refused .bufferConflict := by
  rw [hostLoad, hbusy, inBuffer_iff.mpr hin]
  rfl

theorem hostStore_of_free {a : Nat} {d : Byte} {s : State}
    (hfree : ∀ w, busyOf w s = true → ¬((bufferOf w s).1 ≤ a ∧ a < (bufferOf w s).1 + (bufferOf w s).2)) :
    hostStore a d s = .next (storeByte s a d) := by
  obtain ⟨w, hbusy, hin, -⟩ | ⟨-, hnext⟩ := hostStore_cases a d s
  · exact absurd (inBuffer_iff.mp hin) (hfree w hbusy)
  · exact hnext

theorem hostStore_of_buffer {a : Nat} {d : Byte} {s : State} {w : UnitId} (hbusy : busyOf w s = true)
    (hin : (bufferOf w s).1 ≤ a ∧ a < (bufferOf w s).1 + (bufferOf w s).2) :
    hostStore a d s = .refused .bufferConflict := by
  obtain ⟨-, -, -, hrefused⟩ | ⟨hfree, -⟩ := hostStore_cases a d s
  · exact hrefused
  · cases (hfree w hbusy).symm.trans (inBuffer_iff.mpr hin)

@[simp] theorem bufferOf_setAgenda (u : UnitId) (s : State) (g : List Move) : bufferOf u (s.setAgenda g) = bufferOf u s :=
  (sameUnit_setAgenda u s g).bufferOf

theorem step_of_load {a : Nat} {rest : List Move} {s : State} (h : s.agenda = .load a :: rest) :
    step s = hostLoad a (s.setAgenda rest) :=
  step_of_agenda h

theorem step_of_store {a : Nat} {d : Byte} {rest : List Move} {s : State} (h : s.agenda = .store a d :: rest) :
    step s = hostStore a d (s.setAgenda rest) :=
  step_of_agenda h

/-- Settles O50: the write and the read back are the two accesses on the agenda with the byte free, and each is refused in the
buffers it may not touch. -/
theorem hostWritesOutsideTheWindows : Obligations.HostWritesOutsideTheWindows := by
  refine ⟨fun a d rest s hagenda => ⟨fun hfree => ?_, fun w hbusy hlo hhi => ?_⟩,
    fun a rest s hagenda => ⟨fun hfree => ?_, fun hbusy hlo hhi => ?_⟩⟩
  · have hstore : step s = .next (storeByte (s.setAgenda (.load a :: rest)) a d) := by
      rw [step_of_store hagenda]
      exact hostStore_of_free (by simpa using hfree)
    have hload := (step_of_load (s := storeByte (s.setAgenda (.load a :: rest)) a d) rfl).trans
      (hostLoad_of_free fun h => hfree .venc h.1 h.2)
    refine ⟨_, _, hstore, hload, ?_, ?_, fun b hb => memRead_memWrite_other _ _ hb, rfl, rfl, rfl, rfl, rfl, rfl⟩ <;> simp
  · rw [step_of_store hagenda]
    exact hostStore_of_buffer (w := w) (by simpa using hbusy) (by simpa using ⟨hlo, hhi⟩)
  · rw [step_of_load hagenda]
    exact hostLoad_of_free hfree
  · rw [step_of_load hagenda]
    exact hostLoad_of_output hbusy ⟨hlo, hhi⟩

end Sys2Proof.Machine

/-! # Proofs of the memory family: the bytes an operation reads and writes -/

namespace Sys2Proof.Machine

/-! ### The bytes a decode reads -/

theorem vdecLoop_continuation (n : Nat) {s : State} (hflag : contFlag (vdecByte s) = true) :
    vdecLoop (n + 1) s = vdecLoop n (vdecContinue (payloadOf (vdecByte s)) s) :=
  if_pos hflag

theorem vdecLoop_terminal (n : Nat) {s : State} (hflag : contFlag (vdecByte s) = false) :
    vdecLoop (n + 1) s = vdecTerminate (payloadOf (vdecByte s)) s :=
  if_neg (Bool.eq_false_iff.mp hflag)

theorem vdecContinue_setMem (p : Payload) (s : State) (m : Memory) :
    vdecContinue p (s.setMem m) = (vdecContinue p s).setMem m := rfl

theorem vdecTerminate_setMem (p : Payload) (s : State) (m : Memory) :
    ∃ t, vdecTerminate p s = .next t ∧ vdecTerminate p (s.setMem m) = .next (t.setMem m) := by
  by_cases hovf : (vdecGather p s).vdec.ovf = true
  · exact ⟨_, if_pos hovf, if_pos hovf⟩
  · exact ⟨_, if_neg hovf, if_neg hovf⟩

/-- A decode in flight that meets a terminal byte at index `n` ends there, in another memory with the same bytes up to `n`
too, and with the same registers (41_varint_decoder.md R101, R108). -/
theorem vdecLoop_setMem (k n : Nat) (s : State) (m : Memory) (hi : s.vdec.i ≤ n) (hn : n < s.vdec.i + k)
    (hterm : contFlag (memRead s.mem (byteAddress s.vdec.inp n)) = false)
    (hsame : ∀ j ≤ n, memRead m (byteAddress s.vdec.inp j) = memRead s.mem (byteAddress s.vdec.inp j)) :
    ∃ t, vdecLoop k s = .next t ∧ vdecLoop k (s.setMem m) = .next (t.setMem m) := by
  induction k generalizing s with
  | zero => omega
  | succ k ih =>
    have hbyte : vdecByte (s.setMem m) = vdecByte s := hsame s.vdec.i hi
    cases hflag : contFlag (vdecByte s)
    · rw [vdecLoop_terminal k hflag, vdecLoop_terminal k (hbyte.symm ▸ hflag), hbyte]
      exact vdecTerminate_setMem ..
    · rw [vdecLoop_continuation k hflag, vdecLoop_continuation k (hbyte.symm ▸ hflag), hbyte, vdecContinue_setMem]
      have hne : s.vdec.i ≠ n := by
        rintro rfl
        cases hflag.symm.trans hterm
      exact ih _ (Nat.lt_of_le_of_ne hi hne) (hn.trans_eq (Nat.succ_add_eq_add_succ ..).symm) hterm hsame

/-- Settles O11: START reads no memory, and the loop reads up to the terminal byte. -/
theorem vdecIgnoresBytesAfterTerminal : Obligations.VdecIgnoresBytesAfterTerminal := by
  intro size inp n s m hstart hn hterm hsame
  obtain ⟨t, hloop, hloop'⟩ := vdecLoop_setMem size n (vdecStarted size inp s) m (Nat.zero_le n)
    (hn.trans_eq (Nat.zero_add size).symm) hterm.2 hsame
  have hbegin : startVdec size inp s = .next (vdecStarted size inp s) := beginOp_of_canStart hstart
  have hbegin' : startVdec size inp (s.setMem m) = .next ((vdecStarted size inp s).setMem m) := beginOp_of_canStart hstart
  refine ⟨t, ?_, ?_⟩
  · rw [exec, execVdec, hbegin, andThen_next, hloop]
  · rw [exec, execVdec, hbegin', andThen_next, hloop']

/-! ### The frame of a whole operation -/

theorem sameBut.trans {u : UnitId} {s t r : State} (h : sameBut u s t) (h' : sameBut u t r) : sameBut u s r := by
  obtain ⟨hvenc, hvdec, hcrcu, hcrcm, hagenda, hobserved, hfree⟩ := h
  obtain ⟨hvenc', hvdec', hcrcu', hcrcm', hagenda', hobserved', hfree'⟩ := h'
  exact ⟨fun hu => (hvenc' hu).trans (hvenc hu), fun hu => (hvdec' hu).trans (hvdec hu),
    fun hu => (hcrcu' hu).trans (hcrcu hu), fun hu => (hcrcm' hu).trans (hcrcm hu), hagenda'.trans hagenda,
    hobserved'.trans hobserved, hfree'.trans hfree⟩

theorem UnitStep.mem_of_ne_venc {u : UnitId} {s t : State} (h : UnitStep u s t) (hu : u ≠ .venc) : t.mem = s.mem := by
  obtain hmem | ⟨a, d, hwrites, -⟩ := h.mem
  · exact hmem
  · exact absurd hwrites.1 hu

/-- The steps of a unit other than VENC touch its registers only (60_exceptions.md R184). -/
theorem tickTimes_frame {u : UnitId} (hu : u ≠ .venc) {n : Nat} {s t : State} (h : tickTimes u n s = .next t) :
    sameBut u s t ∧ t.mem = s.mem := by
  induction n generalizing s with
  | zero =>
    cases h
    exact ⟨sameBut_refl u _, rfl⟩
  | succ n ih =>
    obtain ⟨s', hfirst, hrest⟩ := andThen_eq_next h
    have hstep := unitStep_of_tick hfirst
    obtain ⟨hsame, hmem⟩ := ih hrest
    exact ⟨hstep.sameBut.trans hsame, hmem.trans (hstep.mem_of_ne_venc hu)⟩

theorem execVdec_frame {size inp : Nat} {s t : State} (h : execVdec size inp s = .next t) :
    sameBut .vdec s t ∧ t.mem = s.mem := by
  obtain ⟨s', hstart, hloop⟩ := andThen_eq_next h
  obtain ⟨-, rfl⟩ := beginOp_eq_next hstart
  obtain ⟨k, hk⟩ := vdecLoop_eq_tickTimes size (vdecStarted size inp s) rfl (Nat.zero_add _)
  obtain ⟨hsame, hmem⟩ := tickTimes_frame (by decide) (hk.trans hloop)
  exact ⟨(sameBut_setVdec s _).trans hsame, hmem⟩

theorem execCrcu_frame {accIn : Word} {size inp : Nat} {s t : State} (h : execCrcu accIn size inp s = .next t) :
    sameBut .crcu s t ∧ t.mem = s.mem := by
  obtain ⟨s', hstart, hloop⟩ := andThen_eq_next h
  obtain ⟨-, rfl⟩ := beginOp_eq_next hstart
  obtain ⟨hsame, hmem⟩ := tickTimes_frame (by decide)
    ((tickTimes_crcu_eq_crcuLoop size (crcuStarted accIn size inp s) rfl (Nat.zero_add _)).trans hloop)
  exact ⟨(sameBut_setCrcu s _).trans hsame, hmem⟩

theorem execCrcm_frame {a b : Word} {s t : State} (h : execCrcm a b s = .next t) :
    sameBut .crcm s t ∧ t.mem = s.mem := by
  obtain ⟨s', hstart, hdone⟩ := andThen_eq_next h
  obtain ⟨-, rfl⟩ := beginOp_eq_next hstart
  cases hdone
  exact ⟨sameBut_setCrcm s _, rfl⟩

theorem execVarintCont_frame {p : Payload} {s t : State} (h : execVarintCont p s = .next t) :
    sameBut .vdec s t ∧ t.mem = s.mem := by
  unfold execVarintCont at h
  split at h
  · cases h
    exact ⟨sameBut_setVdec s _, rfl⟩
  · cases h

theorem execVarintTerm_frame {p : Payload} {s t : State} (h : execVarintTerm p s = .next t) :
    sameBut .vdec s t ∧ t.mem = s.mem := by
  unfold execVarintTerm at h
  split at h
  · obtain ⟨-, hcorrupt⟩ | ⟨-, hdone⟩ := vdecTerminate_cases p s
    · cases hcorrupt.symm.trans h
      exact ⟨sameBut_setVdec s _, rfl⟩
    · cases hdone.symm.trans h
      exact ⟨sameBut_setVdec s _, rfl⟩
  · cases h

/-- A VENC in flight whose next byte belongs to the canonical sequence writes bytes of that sequence only, to its end
(40_varint_encoder.md R92). -/
theorem vencLoop_frame {n : Nat} {s t : State} (hleft : s.venc.word = s.venc.value >>> (7 * s.venc.i))
    (hdue : s.venc.i < canonicalLength s.venc.value) (h : vencLoop n s = .next t) :
    sameBut .venc s t ∧
      ∀ a, a < s.venc.out ∨ s.venc.out + canonicalLength s.venc.value ≤ a → memRead t.mem a = memRead s.mem a := by
  induction n generalizing s with
  | zero => cases h
  | succ n ih =>
    have hwrite (a : Nat) (ha : a < s.venc.out ∨ s.venc.out + canonicalLength s.venc.value ≤ a) :
        memRead (vencWrite s).mem a = memRead s.mem a :=
      memRead_memWrite_other _ _ (by unfold byteAddress; omega)
    have hleft' : (vencWrite s).venc.word = s.venc.value >>> (7 * (s.venc.i + 1)) := by
      change s.venc.word >>> 7 = _
      rw [hleft, ← BitVec.shiftRight_add, Nat.mul_succ]
    rw [vencLoop] at h
    split at h
    · cases h
      exact ⟨(sameBut_vencWrite s).trans (sameBut_setVenc ..), hwrite⟩
    · next hmore =>
      have hdue' : s.venc.i + 1 < canonicalLength s.venc.value :=
        (lt_canonicalLength_iff _ _).mpr (.inr (hleft' ▸ hmore))
      obtain ⟨hsame, hmem⟩ := ih (s := vencWrite s) hleft' hdue' h
      exact ⟨(sameBut_vencWrite s).trans hsame, fun a ha => (hmem a ha).trans (hwrite a ha)⟩

theorem execVenc_frame {value : Word} {capacity out : Nat} {s t : State} (h : execVenc value capacity out s = .next t) :
    sameBut .venc s t ∧
      ∀ a, a < out ∨ out + canonicalLength value ≤ a → memRead t.mem a = memRead s.mem a := by
  obtain ⟨s', hstart, hloop⟩ := andThen_eq_next h
  obtain ⟨-, rfl⟩ := beginOp_eq_next hstart
  obtain ⟨hsame, hmem⟩ := vencLoop_frame (s := vencStarted value capacity out s) (by simp [vencStarted])
    (canonicalLength_pos value) hloop
  exact ⟨(sameBut_setVenc s _).trans hsame, hmem⟩

/-- Settles O40: the frame of each operation; but for VENC's, memory itself is the same. -/
theorem operationFrame : Obligations.OperationFrame := by
  intro i s t h
  have of_mem_eq {u : UnitId} {P : Nat → Prop} (hframe : sameBut u s t ∧ t.mem = s.mem) :
      sameBut u s t ∧ ∀ a, P a → memRead t.mem a = memRead s.mem a :=
    hframe.imp_right fun hmem a _ => by rw [hmem]
  cases i with
  | venc value capacity out => exact (execVenc_frame h).imp_right fun hmem a ha => hmem a (ha _ _ _ rfl)
  | vdec size inp => exact of_mem_eq (execVdec_frame h)
  | crcu accIn size inp => exact of_mem_eq (execCrcu_frame h)
  | crcm a b => exact of_mem_eq (execCrcm_frame h)
  | crc32c size inp => exact of_mem_eq (execCrcu_frame h)
  | varintCont p => exact of_mem_eq (execVarintCont_frame h)
  | varintTerm p => exact of_mem_eq (execVarintTerm_frame h)

end Sys2Proof.Machine

/-! # Proofs of the memory family: units in flight together -/

namespace Sys2Proof.Machine

theorem sameUnit.symm {u : UnitId} {s t : State} (h : sameUnit u s t) : sameUnit u t s := by
  cases u <;> exact Eq.symm h

theorem sameUnit.trans {u : UnitId} {s t r : State} (h : sameUnit u s t) (h' : sameUnit u t r) : sameUnit u s r := by
  cases u <;> exact Eq.trans h' h

/-- The host's pending moves, its last observation and the count of free values are the same in the two states. -/
def sameHost (s t : State) : Prop := t.agenda = s.agenda ∧ t.observed = s.observed ∧ t.freeCount = s.freeCount

theorem sameHost.symm {s t : State} (h : sameHost s t) : sameHost t s :=
  let ⟨hagenda, hobserved, hfree⟩ := h
  ⟨hagenda.symm, hobserved.symm, hfree.symm⟩

theorem sameHost.trans {s t r : State} (h : sameHost s t) (h' : sameHost t r) : sameHost s r :=
  let ⟨hagenda, hobserved, hfree⟩ := h
  let ⟨hagenda', hobserved', hfree'⟩ := h'
  ⟨hagenda'.trans hagenda, hobserved'.trans hobserved, hfree'.trans hfree⟩

theorem sameBut.host {u : UnitId} {s t : State} (h : sameBut u s t) : sameHost s t := by
  obtain ⟨-, -, -, -, hhost⟩ := h
  exact hhost

theorem eq_of_sameUnit {s t : State} (hunit : ∀ u, sameUnit u s t) (hhost : sameHost s t) (hmem : t.mem = s.mem) :
    t = s := by
  obtain ⟨hagenda, hobserved, hfree⟩ := hhost
  cases s
  cases t
  cases hunit .venc
  cases hunit .vdec
  cases hunit .crcu
  cases hunit .crcm
  cases hmem
  cases hagenda
  cases hobserved
  cases hfree
  rfl

theorem tick_of_unitStep {u : UnitId} {s t : State} (h : UnitStep u s t) : tick u s = .next t := by
  cases h with
  | idle hbusy => exact tick_idle hbusy
  | vencDone hbusy hdone => exact tick_vencDone hbusy hdone
  | vencWrite hbusy hmore hroom => exact tick_vencWrite hbusy hmore hroom
  | vdecContinue hbusy hdue hflag => exact tick_vdec_continuation hbusy hdue hflag
  | vdecDone hbusy hdue hflag hovf => exact (tick_vdec_terminal hbusy hdue hflag).trans (if_neg (Bool.eq_false_iff.mp hovf))
  | vdecCorrupt hbusy hdue hflag hovf => exact (tick_vdec_terminal hbusy hdue hflag).trans (if_pos hovf)
  | vdecTruncated hbusy hend => exact tick_vdec_used_up hbusy hend
  | crcuRead hbusy hdue => exact (tick_crcu hbusy).trans (if_pos hdue)
  | crcuDone hbusy hend => exact (tick_crcu hbusy).trans (if_neg (Nat.not_lt.mpr hend))
  | crcmReduce hbusy hleft => exact (tick_crcm hbusy).trans (if_neg hleft)
  | crcmDone hbusy hend => exact (tick_crcm hbusy).trans (if_pos hend)

/-- A unit's step touches no byte of the buffer of another unit in flight, if their buffers lie apart. -/
theorem UnitStep.sameBuffer {u w : UnitId} {s t : State} (h : UnitStep u s t)
    (hapart : Machine.busyOf u s = true → Machine.busyOf w s = true →
      overlap (bufferOf u s).1 (bufferOf u s).2 (bufferOf w s).1 (bufferOf w s).2 = false) : sameBuffer w s t := by
  intro hbusy a ha
  refine h.memRead ?_
  rintro ⟨rfl, hvenc, -, hroom, rfl⟩
  refine Bool.eq_false_iff.mp (hapart hvenc hbusy) (overlap_iff.mpr ⟨_, inBuffer_iff.mpr ?_, ha⟩)
  exact ⟨Nat.le_add_right .., Nat.add_lt_add_left hroom _⟩

/-- The step of unit `u` from `s` to `s'` and the one from `t` to `t'` leave the unit with the same registers and change memory
by one function, which is the identity but for VENC. -/
def sameEffect (u : UnitId) (s s' t t' : State) : Prop :=
  sameUnit u s' t' ∧ ∃ f : Memory → Memory, s'.mem = f s.mem ∧ t'.mem = f t.mem ∧ (u ≠ .venc → f = id)

theorem sameEffect_of_mem_eq {u : UnitId} {s s' t t' : State} (hregs : sameUnit u s' t') (hs : s'.mem = s.mem)
    (ht : t'.mem = t.mem) : sameEffect u s s' t t' :=
  ⟨hregs, id, hs, ht, fun _ => rfl⟩

/-- The byte an operation in flight is due to read is one of its buffer. -/
theorem sameBuffer.memRead_due {u : UnitId} {s t : State} {i : Nat} (h : sameBuffer u s t) (hbusy : busyOf u s = true)
    (hi : i < (bufferOf u s).2) :
    Machine.memRead t.mem (byteAddress (bufferOf u s).1 i) = Machine.memRead s.mem (byteAddress (bufferOf u s).1 i) :=
  h.memRead hbusy (Nat.succ_le_of_lt hi) (Nat.lt_succ_self i)

theorem sameBuffer.vdecByte {s t : State} (h : sameBuffer .vdec s t) (hregs : sameUnit .vdec s t)
    (hbusy : s.vdec.busy = true) (hdue : s.vdec.i < s.vdec.size) : Machine.vdecByte t = Machine.vdecByte s := by
  rw [sameUnit] at hregs
  rw [Machine.vdecByte, hregs]
  exact h.memRead_due hbusy hdue

/-- A unit's step depends on its own registers and its own buffer only, so it can be made in any state that agrees on them. -/
theorem UnitStep.transfer {u : UnitId} {s s' t : State} (h : UnitStep u s s') (hregs : sameUnit u s t)
    (hbuf : Machine.sameBuffer u s t) : ∃ t', UnitStep u t t' ∧ sameEffect u s s' t t' := by
  cases s
  cases t
  cases h with
  | idle hbusy => exact ⟨_, .idle (hregs.busyOf.trans hbusy), sameEffect_of_mem_eq hregs rfl rfl⟩
  | vencDone hbusy hdone =>
    cases hregs
    exact ⟨_, .vencDone hbusy hdone, sameEffect_of_mem_eq rfl rfl rfl⟩
  | vencWrite hbusy hmore hroom =>
    cases hregs
    exact ⟨_, .vencWrite hbusy hmore hroom, rfl, fun m => memWrite m _ _, rfl, rfl, fun hu => absurd rfl hu⟩
  | vdecContinue hbusy hdue hflag =>
    have hbyte := hbuf.vdecByte hregs hbusy hdue
    rw [← hbyte] at hflag ⊢
    cases hregs
    exact ⟨_, .vdecContinue hbusy hdue hflag, sameEffect_of_mem_eq rfl rfl rfl⟩
  | vdecDone hbusy hdue hflag hovf =>
    have hbyte := hbuf.vdecByte hregs hbusy hdue
    rw [← hbyte] at hflag hovf ⊢
    cases hregs
    exact ⟨_, .vdecDone hbusy hdue hflag hovf, sameEffect_of_mem_eq rfl rfl rfl⟩
  | vdecCorrupt hbusy hdue hflag hovf =>
    have hbyte := hbuf.vdecByte hregs hbusy hdue
    rw [← hbyte] at hflag hovf ⊢
    cases hregs
    exact ⟨_, .vdecCorrupt hbusy hdue hflag hovf, sameEffect_of_mem_eq rfl rfl rfl⟩
  | vdecTruncated hbusy hend =>
    cases hregs
    exact ⟨_, .vdecTruncated hbusy hend, sameEffect_of_mem_eq rfl rfl rfl⟩
  | crcuRead hbusy hdue =>
    have hbyte := hbuf.memRead_due hbusy hdue
    cases hregs
    refine ⟨_, .crcuRead hbusy hdue, sameEffect_of_mem_eq ?_ rfl rfl⟩
    exact congrArg (fun d => CrcuUnit.mk _ _ _ (bytestep _ d) _ _ _ _) hbyte
  | crcuDone hbusy hend =>
    cases hregs
    exact ⟨_, .crcuDone hbusy hend, sameEffect_of_mem_eq rfl rfl rfl⟩
  | crcmReduce hbusy hleft =>
    cases hregs
    exact ⟨_, .crcmReduce hbusy hleft, sameEffect_of_mem_eq rfl rfl rfl⟩
  | crcmDone hbusy hend =>
    cases hregs
    exact ⟨_, .crcmDone hbusy hend, sameEffect_of_mem_eq rfl rfl rfl⟩

/-- After a step of `w` and then one of `u`, or one of `u` and then one of `w`, every unit but `u` has the registers that the
step of `w` left. -/
theorem sameUnit_of_swapped {u w v : UnitId} {s su sw t : State} (hu : sameBut u s su) (hw : sameBut w s sw)
    (hwu : sameBut w su t) (heffect : sameEffect w s sw su t) (hv : v ≠ u) : sameUnit v sw t := by
  by_cases hvw : v = w
  · exact hvw ▸ heffect.1
  · exact (hw.unit hvw).symm.trans ((hu.unit hv).trans (hwu.unit hvw))

/-- Two changes of memory of which one is the identity can be made in either order. -/
theorem sameEffect.mem_swapped {u w : UnitId} {s su sw t t' : State} (huw : u ≠ w) (hu : sameEffect u s su sw t')
    (hw : sameEffect w s sw su t) : t'.mem = t.mem := by
  obtain ⟨-, f, hsu, ht', hf⟩ := hu
  obtain ⟨-, g, hsw, ht, hg⟩ := hw
  rw [ht', ht, hsu, hsw]
  by_cases hvenc : u = .venc
  · rw [hg fun hw => huw (hvenc.trans hw.symm), id, id]
  · rw [hf hvenc, id, id]

/-- Settles O46: each step leaves what the other depends on, so both can still be made, with the effects they had. -/
theorem stepsOfTwoUnitsCommute : Obligations.StepsOfTwoUnitsCommute := by
  intro u w s su sw huw hapart hticku htickw
  have hu := unitStep_of_tick hticku
  have hw := unitStep_of_tick htickw
  obtain ⟨t, hwu, hweffect⟩ := hw.transfer (hu.sameBut.unit huw.symm) (hu.sameBuffer hapart)
  obtain ⟨t', huw', hueffect⟩ := hu.transfer (hw.sameBut.unit huw)
    (hw.sameBuffer fun hbw hbu => (overlap_comm ..).trans (hapart hbu hbw))
  have hunit (v : UnitId) : sameUnit v t t' := by
    by_cases hv : v = u
    · have hvw : v ≠ w := hv ▸ huw
      have hswapped := sameUnit_of_swapped hw.sameBut hu.sameBut huw'.sameBut hueffect hvw
      exact (hwu.sameBut.unit hvw).symm.trans hswapped
    · have hswapped := sameUnit_of_swapped hu.sameBut hw.sameBut hwu.sameBut hweffect hv
      exact hswapped.symm.trans (huw'.sameBut.unit hv)
  have hhost : sameHost t t' :=
    (hu.sameBut.host.trans hwu.sameBut.host).symm.trans (hw.sameBut.host.trans huw'.sameBut.host)
  have heq : t' = t := eq_of_sameUnit hunit hhost (sameEffect.mem_swapped huw hueffect hweffect)
  exact ⟨t, tick_of_unitStep hwu, heq ▸ tick_of_unitStep huw'⟩

end Sys2Proof.Machine

/-! # Proofs of the memory family: the step that ends an operation -/

namespace Sys2Proof.Machine

theorem canonicalLength_le_iff (v : Word) (i : Nat) : canonicalLength v ≤ i ↔ 0 < i ∧ v >>> (7 * i) = 0#32 := by
  rw [← Nat.not_lt, lt_canonicalLength_iff, not_or, not_not, Nat.pos_iff_ne_zero]

/-- A VENC in flight has written its terminal byte exactly when it has written `L(value)` bytes (40_varint_encoder.md R94). -/
theorem VencInv.terminal_written_iff {s : State} (h : VencInv s) (hbusy : s.venc.busy = true) :
    (0 < s.venc.i ∧ s.venc.word = 0#32) ↔ canonicalLength s.venc.value ≤ s.venc.i := by
  rw [h.left hbusy, canonicalLength_le_iff]

theorem tick_venc_at_length {s : State} (h : VencInv s) (hbusy : s.venc.busy = true)
    (hi : s.venc.i = canonicalLength s.venc.value) :
    ∃ t, tick .venc s = .next t ∧ t.venc.busy = false ∧ t.venc.status = some .ok ∧
      t.venc.bytesWritten = some (canonicalLength s.venc.value) ∧
      ∀ k < canonicalLength s.venc.value, memRead t.mem (byteAddress s.venc.out k) = canonicalByte s.venc.value k := by
  refine ⟨_, tick_vencDone hbusy ((h.terminal_written_iff hbusy).mpr hi.ge), rfl, rfl, congrArg some hi, ?_⟩
  rw [← hi]
  exact h.written hbusy

theorem tick_venc_at_capacity {s : State} (h : VencInv s) (hbusy : s.venc.busy = true) (hi : s.venc.i = s.venc.capacity)
    (hshort : s.venc.capacity < canonicalLength s.venc.value) :
    ∃ t, tick .venc s = .fault (.capacityViolation t) ∧ t.venc.busy = false ∧ t.venc.status = some .capacity ∧
      t.venc.bytesWritten = none ∧
      ∀ a, a < s.venc.out ∨ s.venc.out + s.venc.capacity ≤ a → memRead t.mem a = memRead s.mem a := by
  have hmore : ¬(0 < s.venc.i ∧ s.venc.word = 0#32) := by
    rw [h.terminal_written_iff hbusy]
    omega
  exact ⟨_, tick_vencFull hbusy hmore hi.ge, rfl, rfl, rfl, fun a ha => storeFree_frame _ _ _ ha⟩

theorem tick_vdec_at_size {s : State} (h : VdecInv s) (hbusy : s.vdec.busy = true) (hi : s.vdec.i = s.vdec.size) :
    (∀ k < s.vdec.size, contFlag (memRead s.mem (byteAddress s.vdec.inp k)) = true) ∧
    ∃ t, tick .vdec s = .next t ∧ t.vdec.busy = false ∧
      t.vdec.status = some (if Config.errUnify then .corrupt else .truncated) ∧ t.vdec.value = none ∧
      t.vdec.bytesConsumed = none :=
  ⟨hi ▸ h.continued hbusy, _, (tick_vdec_used_up hbusy hi.ge).trans (endWithError_truncated s), rfl, rfl, rfl, rfl⟩

/-- With the byte it reads next, `acc` is the magnitude modulo `2^32` one index further (41_varint_decoder.md R102). -/
theorem VdecInv.gatherAcc_eq_magnitude {s : State} (h : VdecInv s) (hbusy : s.vdec.busy = true) :
    gatherAcc s.vdec.i s.vdec.acc (payloadOf (vdecByte s)) =
      BitVec.ofNat 32 (magnitude s.mem s.vdec.inp (s.vdec.i + 1)) := by
  rw [h.gathered hbusy, gatherAcc_ofNat _ (magnitude_lt ..), magnitude_succ]
  rfl

/-- With the byte it reads next, `ovf` is whether the magnitude one index further has left 32 bits (R102). -/
theorem VdecInv.gatherOvf_iff_magnitude {s : State} (h : VdecInv s) (hbusy : s.vdec.busy = true) :
    gatherOvf s.vdec.i s.vdec.ovf (payloadOf (vdecByte s)) = true ↔
      2 ^ 32 ≤ magnitude s.mem s.vdec.inp (s.vdec.i + 1) := by
  rw [gatherOvf_iff _ (magnitude_lt ..) (h.overflow hbusy), magnitude_succ]
  rfl

theorem tick_vdec_at_terminal {s : State} (h : VdecInv s) (hbusy : s.vdec.busy = true) (hdue : s.vdec.i < s.vdec.size)
    (hflag : contFlag (vdecByte s) = false) :
    ∃ t, tick .vdec s = .next t ∧ t.vdec.busy = false ∧
      (2 ^ 32 ≤ magnitude s.mem s.vdec.inp (s.vdec.i + 1) →
        t.vdec.status = some .corrupt ∧ t.vdec.value = none ∧ t.vdec.bytesConsumed = none) ∧
      (magnitude s.mem s.vdec.inp (s.vdec.i + 1) < 2 ^ 32 → t.vdec.status = some .ok ∧
        t.vdec.value = some (BitVec.ofNat 32 (magnitude s.mem s.vdec.inp (s.vdec.i + 1))) ∧
        t.vdec.bytesConsumed = some (s.vdec.i + 1)) := by
  rw [tick_vdec_terminal hbusy hdue hflag]
  obtain ⟨hover, hend⟩ | ⟨hfits, hend⟩ := vdecTerminate_cases (payloadOf (vdecByte s)) s
  · refine ⟨_, hend, rfl, fun _ => ⟨rfl, rfl, rfl⟩, fun hlt => ?_⟩
    exact absurd ((h.gatherOvf_iff_magnitude hbusy).mp hover) (Nat.not_le.mpr hlt)
  · refine ⟨_, hend, rfl, fun hge => ?_, fun _ => ⟨rfl, congrArg some (h.gatherAcc_eq_magnitude hbusy), rfl⟩⟩
    exact absurd ((h.gatherOvf_iff_magnitude hbusy).mpr hge) (Bool.eq_false_iff.mp hfits)

theorem tick_crcu_at_size {s : State} (h : CrcuInv s) (hbusy : s.crcu.busy = true) (hi : s.crcu.i = s.crcu.size) :
    ∃ t, tick .crcu s = .next t ∧ t.crcu.busy = false ∧ t.crcu.status = some .ok ∧
      t.crcu.accOut = some (checksum s.crcu.accIn (bytesAt s.mem s.crcu.inp s.crcu.size)) := by
  refine ⟨_, tick_of_unitStep (.crcuDone hbusy hi.ge), rfl, rfl, ?_⟩
  rw [checksum, ← hi, ← h.working hbusy]
  rfl

theorem tick_crcm_at_zero {s : State} (h : CrcmInv s) (hbusy : s.crcm.busy = true) (hk : s.crcm.k = 0#6) :
    ∃ t, tick .crcm s = .next t ∧ t.crcm.busy = false ∧ t.crcm.status = some .ok ∧
      t.crcm.product = some (ringProduct s.crcm.a s.crcm.b) := by
  have hz : s.crcm.z = reduce (wideProduct s.crcm.a s.crcm.b) := by
    have hworking := h.working hbusy
    rwa [hk] at hworking
  refine ⟨_, tick_of_unitStep (.crcmDone hbusy hk), rfl, rfl, ?_⟩
  rw [ringProduct, ← hz]
  rfl

/-- Settles O47: each end of an operation, by the invariant's clause about the working registers of its unit. -/
theorem lastStepDeliversClosedForm : Obligations.LastStepDeliversClosedForm := by
  intro s h
  exact ⟨tick_venc_at_length h.venc, tick_venc_at_capacity h.venc, tick_vdec_at_size h.vdec,
    fun hbusy hdue hterminal => tick_vdec_at_terminal h.vdec hbusy hdue hterminal.2, tick_crcu_at_size h.crcu,
    tick_crcm_at_zero h.crcm⟩

end Sys2Proof.Machine

/-! # Proofs of the encoding family: operations, varint bytes and status codes -/

namespace Sys2Proof.Machine

/-! ### Decoding and encoding -/

/-- Both formats are read back to the operation the code was made of (30_encoding.md R61, R75, R79). -/
theorem decode_encode (i : Instr) : decode (encode i) = i.core := by
  cases i with
  | venc | vdec | crcu | crcm | crc32c => rfl
  | varintCont p => simp [encode, decode, decodeByte, contFlag_varintByte, payloadOf_varintByte, Instr.core]
  | varintTerm p => simp [encode, decode, decodeByte, contFlag_varintByte, payloadOf_varintByte, Instr.core]

/-- An operation has the code of the core operation it stands for (R79). -/
theorem encode_core (i : Instr) : encode i.core = encode i := by
  cases i <;> rfl

theorem encode_eq_iff (i j : Instr) : encode i = encode j ↔ i.core = j.core := by
  constructor
  · intro h
    rw [← decode_encode i, h, decode_encode]
  · intro h
    rw [← encode_core i, h, encode_core]

/-- A byte is its flag and its payload (R61). -/
theorem varintByte_contFlag_payloadOf (d : Byte) : varintByte (contFlag d) (payloadOf d) = d := by
  refine BitVec.eq_of_getLsbD_eq fun i hi => ?_
  simp only [varintByte, payloadOf, contFlag, BitVec.getLsbD_append, BitVec.getLsbD_extractLsb']
  by_cases hlow : i < 7
  · simp [hlow]
  · obtain rfl : i = 7 := by omega
    simp

theorem encode_decodeByte (d : Byte) : encode (decodeByte d) = .byte d := by
  refine Eq.trans ?_ (congrArg Code.byte (varintByte_contFlag_payloadOf d))
  unfold decodeByte
  cases contFlag d <;> rfl

/-- Settles O2: decoding inverts encoding up to the pseudo-operation, which `encode` does not tell from its core. -/
theorem decodeInvertsEncode : Obligations.DecodeInvertsEncode :=
  ⟨decode_encode, encode_eq_iff, encode_decodeByte⟩

/-! ### The two kinds of varint byte -/

theorem contFlag_eq_decide (d : Byte) : contFlag d = decide (0x80 ≤ d.toNat) :=
  BitVec.msb_eq_decide d

theorem payloadOf_eq_ofNat (d : Byte) : payloadOf d = BitVec.ofNat 7 d.toNat := by
  refine BitVec.eq_of_toNat_eq ?_
  simp [payloadOf]

/-- Settles O1: bit 7 of a byte is whether it is `0x80` or more. -/
theorem everyByteIsContinuationOrTerminal : Obligations.EveryByteIsContinuationOrTerminal := by
  intro d
  rw [decodeByte, contFlag_eq_decide, payloadOf_eq_ofNat]
  refine ⟨fun hcont => ?_, fun hterm => ?_⟩
  · rw [if_pos (decide_eq_true hcont)]
  · rw [if_neg (by simpa using hterm)]

/-! ### The opcode table and the status codes -/

/-- Settles O3, by reading the eight words of the table. -/
theorem opcodeTableWordsDecode : Obligations.OpcodeTableWordsDecode :=
  ⟨rfl, rfl, rfl, rfl, rfl, rfl, rfl, rfl⟩

/-- Settles O4: the four codes, one by one, in both directions. -/
theorem statusCodesNameTheFourStatuses : Obligations.StatusCodesNameTheFourStatuses :=
  ⟨rfl, rfl, rfl, rfl, fun st => by cases st <;> rfl, by decide⟩

/-! ### Decoding in a step -/

/-- A varint byte form runs only in a decode that waits for a byte (log 13). -/
theorem exec_varint_of_not_byteDue {s : State} (h : byteDue s = false) (p : Payload) :
    exec (.varintCont p) s = .refused .noByteDue ∧ exec (.varintTerm p) s = .refused .noByteDue :=
  have hdue : ¬byteDue s = true := Bool.eq_false_iff.mp h
  ⟨if_neg hdue, if_neg hdue⟩

/-- Settles O14: `byteDue` asks for a decode in flight and a byte left in its buffer. -/
theorem varintByteWithoutDecodeIsRefused : Obligations.VarintByteWithoutDecodeIsRefused := by
  intro p s h
  refine exec_varint_of_not_byteDue ?_ p
  rw [← Bool.not_eq_true, byteDue_iff]
  rintro ⟨hbusy, hdue⟩
  obtain hidle | hend := h
  · exact Bool.false_ne_true (hidle.symm.trans hbusy)
  · exact Nat.not_lt.mpr hend hdue

theorem tickAction_vdec_of_byteDue {s : State} (hbusy : s.vdec.busy = true) (hdue : s.vdec.i < s.vdec.size) :
    tickAction .vdec s = .run (decodeByte (vdecByte s)) s :=
  (if_pos hbusy).trans (if_pos (byteDue_iff.mpr ⟨hbusy, hdue⟩))

/-- Settles O37: a call comes to the decoded START event, a step of a waiting decode to the decoded byte. -/
theorem stepRunsTheDecodedOperation : Obligations.StepRunsTheDecodedOperation := by
  refine ⟨fun e rest s hagenda => step_of_agenda hagenda, fun rest s hagenda hbusy hdue => ?_⟩
  exact (step_of_agenda hagenda).trans (congrArg perform (tickAction_vdec_of_byteDue (s := s.setAgenda rest) hbusy hdue))

end Sys2Proof.Machine

/-! # Proofs of the encoding family: the canonical sequence and what the decoder accepts -/

namespace Sys2Proof.Machine

/-! ### The length of the canonical sequence -/

theorem toNat_lt_two_pow_bitLength (v : Word) : v.toNat < 2 ^ bitLength v := by
  rw [← Nat.not_le, ← lt_bitLength_iff]
  exact Nat.lt_irrefl _

theorem two_pow_pred_bitLength_le {v : Word} (hv : v ≠ 0#32) : 2 ^ (bitLength v - 1) ≤ v.toNat := by
  have hpos : 1 ≤ v.toNat := Nat.pos_of_ne_zero fun h => hv (BitVec.eq_of_toNat_eq h)
  have hlen : 0 < bitLength v := (lt_bitLength_iff v 0).mpr hpos
  exact (lt_bitLength_iff v _).mp (Nat.sub_lt hlen Nat.one_pos)

/-- A value between `2^(7i)` and `2^(7(i+1))` takes `i + 1` bytes; so does one below `2^7` for `i = 0` (30_encoding.md R64). -/
theorem canonicalLength_eq_of_range {v : Word} {i : Nat} (hlo : i = 0 ∨ 2 ^ (7 * i) ≤ v.toNat)
    (hhi : v.toNat < 2 ^ (7 * (i + 1))) : canonicalLength v = i + 1 := by
  rw [← ushiftRight_ne_zero_iff, ← lt_canonicalLength_iff] at hlo
  rw [← Nat.not_le, ← ushiftRight_ne_zero_iff, not_not] at hhi
  exact Nat.le_antisymm (Nat.not_lt.mp (by simp [lt_canonicalLength_iff, hhi])) hlo

/-- Settles O5: the bit length brackets the value, and each range of the table is one between powers of `2^7`. -/
theorem canonicalLengthByValueRange : Obligations.CanonicalLengthByValueRange := by
  refine ⟨rfl, fun v => ⟨rfl, ⟨toNat_lt_two_pow_bitLength v, two_pow_pred_bitLength_le⟩, fun hhi => ?_, fun hlo hhi => ?_,
    fun hlo hhi => ?_, fun hlo hhi => ?_, fun hlo => ?_⟩⟩
  · exact canonicalLength_eq_of_range (i := 0) (.inl rfl) (Nat.lt_succ_of_le hhi)
  · exact canonicalLength_eq_of_range (i := 1) (.inr hlo) (Nat.lt_succ_of_le hhi)
  · exact canonicalLength_eq_of_range (i := 2) (.inr hlo) (Nat.lt_succ_of_le hhi)
  · exact canonicalLength_eq_of_range (i := 3) (.inr hlo) (Nat.lt_succ_of_le hhi)
  · exact canonicalLength_eq_of_range (i := 4) (.inr hlo) (v.isLt.trans (by decide))

/-! ### The terminal byte of the canonical sequence -/

theorem toNat_varintByte_false (p : Payload) : (varintByte false p).toNat = p.toNat := by
  rw [varintByte, BitVec.toNat_append]
  simp

/-- What is left of a value at the last index of its canonical sequence fits the byte there, which is that number. -/
theorem toNat_canonicalByte_last {v : Word} {i : Nat} (h : canonicalLength v = i + 1) :
    (canonicalByte v i).toNat = v.toNat / 2 ^ (7 * i) := by
  have hlast : decide (i < canonicalLength v - 1) = false := by simp [h]
  have hfits : v.toNat < 2 ^ (7 * i + 7) := by
    rw [← Nat.not_le, ← ushiftRight_ne_zero_iff, not_not]
    exact ((canonicalLength_le_iff v (i + 1)).mp h.le).2
  have hlt : v.toNat / 2 ^ (7 * i) < 2 ^ 7 := by
    rw [Nat.div_lt_iff_lt_mul (Nat.two_pow_pos _), ← Nat.pow_add, Nat.add_comm]
    exact hfits
  rw [canonicalByte, hlast, toNat_varintByte_false, groupOf, BitVec.extractLsb'_toNat, BitVec.toNat_ushiftRight,
    Nat.shiftRight_zero, Nat.shiftRight_eq_div_pow, Nat.mod_eq_of_lt hlt]

/-- Above length 1 something of the value is left at the last index. -/
theorem canonicalByte_last_pos {v : Word} {i : Nat} (hi : i ≠ 0) (h : canonicalLength v = i + 1) :
    0 < (canonicalByte v i).toNat := by
  have hleft : v >>> (7 * i) ≠ 0#32 := ((lt_canonicalLength_iff v i).mp (by omega)).resolve_left hi
  rw [toNat_canonicalByte_last h]
  exact Nat.div_pos ((ushiftRight_ne_zero_iff v _).mp hleft) (Nat.two_pow_pos _)

/-- Settles O6: the terminal byte is what is left of the value at its index, of which length 5 leaves bits 31:28. -/
theorem canonicalTerminalByte : Obligations.CanonicalTerminalByte := by
  refine ⟨fun v hlen hzero => ?_, fun v hlen => ?_, by decide⟩
  · have hpos := canonicalByte_last_pos (v := v) (i := canonicalLength v - 1) (by omega) (by omega)
    rw [hzero] at hpos
    exact Nat.lt_irrefl 0 hpos
  · have hpos := canonicalByte_last_pos (by decide) hlen
    have hbyte := toNat_canonicalByte_last hlen
    have hv := v.isLt
    have hle : (canonicalByte v 4).toNat ≤ 0x0F := by omega
    refine ⟨hpos, hle, BitVec.eq_of_toNat_eq ?_, BitVec.eq_of_toNat_eq ?_⟩
    · simp only [BitVec.extractLsb'_toNat, Nat.shiftRight_eq_div_pow, hbyte]
      norm_num
    · simp only [BitVec.extractLsb'_toNat, Nat.shiftRight_eq_div_pow, BitVec.toNat_ofNat]
      omega

/-! ### What a decode accepts -/

theorem gatherAcc_lt {i : Nat} {acc : Word} (p : Payload) (h : acc.toNat < 2 ^ (7 * i)) :
    (gatherAcc i acc p).toNat < 2 ^ (7 * (i + 1)) := by
  have hp := p.isLt
  have hgather := gatherAcc_ofNat p h
  rw [BitVec.ofNat_toNat, BitVec.setWidth_eq] at hgather
  rw [hgather, BitVec.toNat_ofNat, Nat.mul_succ, Nat.pow_add]
  refine (Nat.mod_le ..).trans_lt ?_
  nlinarith

/-- A terminal byte that ends the operation with a value delivers the gathered `acc` and the bytes up to itself
(41_varint_decoder.md R101). -/
theorem vdecTerminate_accepts {p : Payload} {s t : State} {v : Word} (h : vdecTerminate p s = .next t)
    (hvalue : t.vdec.value = some v) :
    v = gatherAcc s.vdec.i s.vdec.acc p ∧ t.vdec.bytesConsumed = some (s.vdec.i + 1) := by
  obtain ⟨-, hcorrupt⟩ | ⟨-, hdone⟩ := vdecTerminate_cases p s
  · cases hcorrupt.symm.trans h
    cases hvalue
  · cases hdone.symm.trans h
    cases hvalue
    exact ⟨rfl, rfl⟩

/-- A decode in flight whose `acc` fits the payloads read so far delivers a value that fits the bytes it consumed, all of them
of its buffer. -/
theorem vdecLoop_accepts {k n : Nat} {v : Word} {s t : State} (hacc : s.vdec.acc.toNat < 2 ^ (7 * s.vdec.i))
    (h : vdecLoop k s = .next t) (hvalue : t.vdec.value = some v) (hcount : t.vdec.bytesConsumed = some n) :
    v.toNat < 2 ^ (7 * n) ∧ 0 < n ∧ n ≤ s.vdec.i + k := by
  induction k generalizing s with
  | zero =>
    cases h
    cases hvalue
  | succ k ih =>
    have hgather := gatherAcc_lt (payloadOf (vdecByte s)) hacc
    cases hflag : contFlag (vdecByte s)
    · rw [vdecLoop_terminal k hflag] at h
      obtain ⟨rfl, hn⟩ := vdecTerminate_accepts h hvalue
      cases hn.symm.trans hcount
      exact ⟨hgather, by omega, by omega⟩
    · rw [vdecLoop_continuation k hflag] at h
      obtain ⟨hv, hpos, hle⟩ := ih hgather h
      exact ⟨hv, hpos, hle.trans_eq (Nat.succ_add_eq_add_succ ..)⟩

theorem execVdec_accepts {size inp n : Nat} {v : Word} {s t : State} (h : execVdec size inp s = .next t)
    (hvalue : t.vdec.value = some v) (hcount : t.vdec.bytesConsumed = some n) :
    v.toNat < 2 ^ (7 * n) ∧ 0 < n ∧ n ≤ size := by
  obtain ⟨s', hstart, hloop⟩ := andThen_eq_next h
  obtain ⟨-, rfl⟩ := beginOp_eq_next hstart
  obtain ⟨hv, hpos, hle⟩ := vdecLoop_accepts (s := vdecStarted size inp s) Nat.one_pos hloop hvalue hcount
  exact ⟨hv, hpos, hle.trans_eq (Nat.zero_add size)⟩

/-- Settles O31: `n` payloads spell a value below `2^(7n)`, whose canonical sequence has at most `n` bytes. -/
theorem noAcceptedSequenceIsShorterThanCanonical : Obligations.NoAcceptedSequenceIsShorterThanCanonical := by
  intro size inp n v s t h hvalue hcount
  obtain ⟨hv, hpos, hle⟩ := execVdec_accepts h hvalue hcount
  rw [← Nat.not_le, ← ushiftRight_ne_zero_iff, not_not] at hv
  exact ⟨(canonicalLength_le_iff v n).mpr ⟨hpos, hv⟩, hle⟩

/-! ### The checksum of a buffer -/

/-- A CRCU in flight whose `crc` is the working value of the bytes read so far reads the `n` bytes left and ends
(42_crc32c_core.md R122). -/
theorem crcuLoop_eq (n : Nat) (c : Word) (s : State)
    (hworking : s.crcu.crc = crcAfter c (bytesAt s.mem s.crcu.inp s.crcu.i)) :
    crcuLoop n s = crcuDone (s.setCrcu { s.crcu with
      crc := crcAfter c (bytesAt s.mem s.crcu.inp (s.crcu.i + n)), i := s.crcu.i + n }) := by
  induction n generalizing s with
  | zero =>
    rw [Nat.add_zero, ← hworking]
    rfl
  | succ n ih =>
    have hread : (crcuRead s).crcu.crc = crcAfter c (bytesAt s.mem s.crcu.inp (s.crcu.i + 1)) := by
      rw [bytesAt_succ, crcAfter_append_byte, ← hworking]
      rfl
    rw [show s.crcu.i + (n + 1) = (crcuRead s).crcu.i + n from (Nat.succ_add_eq_add_succ ..).symm]
    exact ih (crcuRead s) hread

/-- CRCU from a state in which it can be started (R122, R130). -/
theorem execCrcu_of_canStart {size inp : Nat} {s : State} (accIn : Word) (h : canStart .crcu inp size s = true) :
    execCrcu accIn size inp s = .next (s.setCrcu {
      accIn := accIn, size := size, inp := inp, crc := crcAfter (condition accIn) (bytesAt s.mem inp size), i := size,
      accOut := some (checksum accIn (bytesAt s.mem inp size)), status := some .ok, busy := false }) := by
  have hstart : startCrcu accIn size inp s = .next (crcuStarted accIn size inp s) := beginOp_of_canStart h
  have hloop := crcuLoop_eq size (condition accIn) (crcuStarted accIn size inp s) rfl
  rw [show (crcuStarted accIn size inp s).crcu.i + size = size from Nat.zero_add size] at hloop
  rw [execCrcu, hstart, andThen_next, hloop]
  rfl

/-- Settles O21: CRC32C runs CRCU from the fresh accumulator, which is 0. -/
theorem crc32cIsCrcuFromFreshAccumulator : Obligations.Crc32cIsCrcuFromFreshAccumulator := by
  intro size inp s h
  have hexec := execCrcu_of_canStart 0#32 h
  exact ⟨_, hexec, hexec, rfl, rfl, rfl, sameBut_setCrcu s _, fun _ => rfl⟩

end Sys2Proof.Machine

/-! # Proofs of the encoding family: the ring product as a sum of shifted elements -/

namespace Sys2Proof.Machine

/-! ### The bit step -/

/-- The bit step is additive (42_crc32c_core.md R121), as the reduction is on 32 bits. -/
theorem bitstep_xor (c d : Word) : bitstep (c ^^^ d) = bitstep c ^^^ bitstep d := by
  have hlow (x : Word) : ((x.setWidth 64).setWidth 32 : Word) = x := by simp
  have hwide := reduceStep_bitwise_xor (c.setWidth 64) (d.setWidth 64)
  rw [← BitVec.setWidth_xor] at hwide
  simp only [reduceStep_bitwise_setWidth, ← BitVec.setWidth_xor] at hwide
  rw [← hlow (bitstep (c ^^^ d)), hwide, hlow]

theorem bitstep_zero : bitstep 0#32 = 0#32 := by decide

theorem iterate_bitstep_zero (n : Nat) : bitstep^[n] 0#32 = 0#32 :=
  Function.iterate_fixed bitstep_zero n

/-- `x^(31-n)` in the ring is bit `n` (30_encoding.md R70). -/
theorem iterate_bitstep_one (n : Nat) (hn : n < 32) : bitstep^[31 - n] 0x80000000#32 = BitVec.twoPow 32 n := by
  revert n
  decide

/-! ### The ring product -/

/-- The first `n` summands of the ring product: `a` times `x^(31-j)` for each set bit `j` of `b`
(43_crc32c_ring_multiply.md R141, R142). -/
def ringSum (a b : Word) : Nat → Word
  | 0 => 0#32
  | n + 1 => ringSum a b n ^^^ (if b.getLsbD n then bitstep^[31 - n] a else 0#32)

theorem shiftLeft_ushiftRight_setWidth (a : Word) {n : Nat} (hn : n ≤ 32) :
    ((a.setWidth 64 : Wide) <<< n) >>> n = a.setWidth 64 := by
  refine BitVec.eq_of_getLsbD_eq fun i _ => ?_
  by_cases hi : i < 32
  · simp [show n + i < 64 by omega, show i < 64 by omega]
  · simp [Nat.le_of_not_lt hi]

/-- The reduction takes a partial product to its summand: `n + 1` of its 32 bit steps undo the shift. -/
theorem iterate_reduceStep_shiftLeft (a : Word) {n : Nat} (hn : n < 32) :
    (reduceStep .bitwise)^[32] (a.setWidth 64 <<< n <<< 1) = (bitstep^[31 - n] a).setWidth 64 := by
  have hundo : (reduceStep .bitwise)^[n + 1] (a.setWidth 64 <<< (n + 1)) = a.setWidth 64 := by
    rw [iterate_reduceStep_of_low_zero _ _ fun i hi => by simp [hi], shiftLeft_ushiftRight_setWidth a hn]
  have hsteps : (reduceStep .bitwise)^[32] = (reduceStep .bitwise)^[31 - n + (n + 1)] := congrArg _ (by omega)
  rw [← BitVec.shiftLeft_add, hsteps, Function.iterate_add_apply, hundo, iterate_reduceStep_setWidth]

theorem iterate_reduceStep_clmulUpTo (a b : Word) {n : Nat} (hn : n ≤ 32) :
    (reduceStep .bitwise)^[32] (clmulUpTo a b n <<< 1) = (ringSum a b n).setWidth 64 := by
  have hzero : (reduceStep .bitwise)^[32] (0#64 <<< 1) = (0#32).setWidth 64 :=
    iterate_reduceStep_of_low_zero 32 0#64 (by simp)
  induction n with
  | zero => exact hzero
  | succ n ih =>
    rw [clmulUpTo, BitVec.shiftLeft_xor_distrib, iterate_reduceStep_xor, ih (by omega), ringSum, BitVec.setWidth_xor]
    congr 1
    split
    · exact iterate_reduceStep_shiftLeft a hn
    · exact hzero

theorem ringProduct_eq_ringSum (a b : Word) : ringProduct a b = ringSum a b 32 := by
  have h : reduce (wideProduct a b) = (ringSum a b 32).setWidth 64 := iterate_reduceStep_clmulUpTo a b le_rfl
  rw [ringProduct, h]
  simp [lowWord]

/-! ### The constants of the ring -/

theorem ringSum_zero (b : Word) (n : Nat) : ringSum 0#32 b n = 0#32 := by
  induction n with
  | zero => rfl
  | succ n ih => rw [ringSum, ih, iterate_bitstep_zero, ite_self, BitVec.xor_zero]

theorem ringSum_bitstep (a b : Word) (n : Nat) : ringSum (bitstep a) b n = bitstep (ringSum a b n) := by
  induction n with
  | zero => exact bitstep_zero.symm
  | succ n ih =>
    rw [ringSum, ringSum, ih, bitstep_xor]
    congr 1
    split
    · rw [← Function.iterate_succ_apply, Function.iterate_succ_apply']
    · exact bitstep_zero.symm

theorem ringProduct_bitstep (a b : Word) : ringProduct (bitstep a) b = bitstep (ringProduct a b) := by
  rw [ringProduct_eq_ringSum, ringSum_bitstep, ← ringProduct_eq_ringSum]

/-- From the identity the summands are the set bits of the other operand. -/
theorem getLsbD_ringSum_one (b : Word) {n : Nat} (hn : n ≤ 32) (i : Nat) :
    (ringSum 0x80000000#32 b n).getLsbD i = (decide (i < n) && b.getLsbD i) := by
  induction n with
  | zero => simp [ringSum]
  | succ n ih =>
    rw [ringSum, iterate_bitstep_one n hn, BitVec.getLsbD_xor, ih (by omega)]
    have hn32 : n < 32 := hn
    obtain rfl | hne := eq_or_ne n i
    · cases b.getLsbD n <;> simp [hn32]
    · have hlt : i ≤ n ↔ i < n := by omega
      cases b.getLsbD n <;> simp [hne, hlt]

theorem ringProduct_one (b : Word) : ringProduct 0x80000000#32 b = b := by
  rw [ringProduct_eq_ringSum]
  refine BitVec.eq_of_getLsbD_eq fun i hi => ?_
  rw [getLsbD_ringSum_one b le_rfl, decide_eq_true hi, Bool.true_and]

theorem ringProduct_x (b : Word) : ringProduct 0x40000000#32 b = bitstep b := by
  rw [show 0x40000000#32 = bitstep 0x80000000#32 by decide, ringProduct_bitstep, ringProduct_one]

/-- Settles O26: multiplication by the identity and by `x` through the sum, `x^32` as 32 bit steps. -/
theorem ringConstants : Obligations.RingConstants := by
  refine ⟨ringProduct_one, fun b => ?_, ringProduct_x, ?_⟩
  · rw [ringProduct_eq_ringSum, ringSum_zero]
  · rw [funext ringProduct_x]
    decide

end Sys2Proof.Machine

/-! # Proofs of the encoding family: ring elements as residues of polynomials modulo the generator -/

namespace Sys2Proof.Machine

open Polynomial

/-! ### The polynomial of a word -/

theorem polynomialOf_zero : polynomialOf 0#32 = 0 := by simp [polynomialOf]

/-- Xor of words is addition of polynomials (30_encoding.md R70). -/
theorem polynomialOf_xor (v w : Word) : polynomialOf (v ^^^ w) = polynomialOf v + polynomialOf w := by
  rw [polynomialOf, polynomialOf, polynomialOf, ← Finset.sum_add_distrib]
  refine Finset.sum_congr rfl fun j _ => ?_
  rw [BitVec.getLsbD_xor]
  cases v.getLsbD j <;> cases w.getLsbD j <;> simp [CharTwo.add_self_eq_zero]

theorem degree_polynomialOf_lt (v : Word) : (polynomialOf v).degree < (32 : ℕ) := by
  rw [← mem_degreeLT]
  refine Submodule.sum_mem _ fun j _ => ?_
  split
  · rw [mem_degreeLT, degree_X_pow, Nat.cast_lt]
    omega
  · exact Submodule.zero_mem _

/-- A shift right is multiplication by `x`, with bit 0 leaving as `x^32` (R70, 42_crc32c_core.md R121). -/
theorem X_mul_polynomialOf (v : Word) :
    X * polynomialOf v = polynomialOf (v >>> 1) + if v.getLsbD 0 then X ^ 32 else 0 := by
  have hterm (j : ℕ) (hj : j ∈ Finset.range 31) :
      X * (if v.getLsbD (j + 1) then X ^ (31 - (j + 1)) else 0) =
        if (v >>> 1).getLsbD j then (X ^ (31 - j) : (ZMod 2)[X]) else 0 := by
    have hj' : 31 - j = 31 - (j + 1) + 1 := by have := Finset.mem_range.mp hj; omega
    rw [BitVec.getLsbD_ushiftRight, Nat.add_comm 1 j, hj', mul_ite, mul_zero, pow_succ']
  have hlast : (v >>> 1).getLsbD 31 = false := by simp
  rw [polynomialOf, polynomialOf, Finset.sum_range_succ', mul_add, Finset.mul_sum, Finset.sum_congr rfl hterm,
    Finset.sum_range_succ _ 31, hlast, if_neg Bool.false_ne_true, add_zero, mul_ite, mul_zero, ← pow_succ']

/-! ### The generator -/

theorem generator_eq : generator = X ^ 32 + polynomialOf Config.poly := by
  simp [generator, polynomialOf, Config.poly, Finset.sum_range_succ, add_assoc]

theorem generator_monic : generator.Monic := by
  rw [generator_eq]
  exact monic_X_pow_add (degree_polynomialOf_lt _)

theorem degree_generator : generator.degree = (32 : ℕ) := by
  rw [generator_eq, degree_add_eq_left_of_degree_lt] <;> rw [degree_X_pow]
  exact degree_polynomialOf_lt _

/-! ### Residues -/

/-- The residue of a word's polynomial modulo the generator: the ring element it stands for (R70). -/
noncomputable def residue (v : Word) : AdjoinRoot generator := AdjoinRoot.mk generator (polynomialOf v)

theorem residue_zero : residue 0#32 = 0 := by rw [residue, polynomialOf_zero, map_zero]

theorem residue_xor (v w : Word) : residue (v ^^^ w) = residue v + residue w := by
  rw [residue, polynomialOf_xor, map_add]
  rfl

/-- `POLY` stands for `x^32` (R72). -/
theorem mk_poly : AdjoinRoot.mk generator (polynomialOf Config.poly) = AdjoinRoot.mk generator (X ^ 32) := by
  rw [eq_comm, AdjoinRoot.mk_eq_mk, CharTwo.sub_eq_add, ← generator_eq]

/-- The bit step is multiplication by `x` (R121). -/
theorem residue_bitstep (v : Word) : residue (bitstep v) = AdjoinRoot.root generator * residue v := by
  rw [bitstep, residue_xor, residue, residue, residue, ← AdjoinRoot.mk_X, ← map_mul, X_mul_polynomialOf, map_add]
  congr 1
  split
  · exact mk_poly
  · rw [polynomialOf_zero]

theorem residue_iterate_bitstep (n : ℕ) (v : Word) :
    residue (bitstep^[n] v) = AdjoinRoot.root generator ^ n * residue v := by
  induction n with
  | zero => rw [pow_zero, one_mul, Function.iterate_zero_apply]
  | succ n ih => rw [Function.iterate_succ_apply', residue_bitstep, ih, pow_succ', mul_assoc]

theorem residue_ringSum (a b : Word) (n : ℕ) :
    residue (ringSum a b n) =
      residue a * ∑ j ∈ Finset.range n, if b.getLsbD j then AdjoinRoot.root generator ^ (31 - j) else 0 := by
  induction n with
  | zero => rw [ringSum, residue_zero, Finset.sum_range_zero, mul_zero]
  | succ n ih =>
    have hterm : residue (if b.getLsbD n then bitstep^[31 - n] a else 0#32) =
        residue a * if b.getLsbD n then AdjoinRoot.root generator ^ (31 - n) else 0 := by
      split
      · rw [residue_iterate_bitstep, mul_comm]
      · rw [residue_zero, mul_zero]
    rw [ringSum, residue_xor, ih, hterm, Finset.sum_range_succ, mul_add]

theorem residue_eq_sum (b : Word) :
    residue b = ∑ j ∈ Finset.range 32, if b.getLsbD j then AdjoinRoot.root generator ^ (31 - j) else 0 := by
  rw [residue, polynomialOf, map_sum]
  refine Finset.sum_congr rfl fun j _ => ?_
  rw [apply_ite (AdjoinRoot.mk generator), map_pow, AdjoinRoot.mk_X, map_zero]

theorem residue_ringProduct (a b : Word) : residue (ringProduct a b) = residue a * residue b := by
  rw [ringProduct_eq_ringSum, residue_ringSum, ← residue_eq_sum]

/-- The polynomial of a ring product is the remainder of the product (43_crc32c_ring_multiply.md R144). -/
theorem polynomialOf_ringProduct (a b : Word) :
    polynomialOf (ringProduct a b) = (polynomialOf a * polynomialOf b) %ₘ generator := by
  have hdvd : generator ∣ polynomialOf (ringProduct a b) - polynomialOf a * polynomialOf b :=
    AdjoinRoot.mk_eq_mk.mp ((residue_ringProduct a b).trans (map_mul ..).symm)
  have hdeg : (polynomialOf (ringProduct a b)).degree < generator.degree := by
    rw [degree_generator]
    exact degree_polynomialOf_lt _
  rw [← modByMonic_eq_of_dvd_sub generator_monic hdvd, (modByMonic_eq_self_iff generator_monic).mpr hdeg]

/-- CRCM on an idle unit (43_crc32c_ring_multiply.md R142). -/
theorem execCrcm_of_idle (a b : Word) {s : State} (h : s.crcm.busy = false) :
    execCrcm a b s = .next (s.setCrcm {
      a := a, b := b, z := reduce (wideProduct a b), k := 0#6, product := some (ringProduct a b), status := some .ok,
      busy := false }) := by
  have hstart : startCrcm a b s = .next (crcmStarted a b s) :=
    beginOp_of_canStart (canStart_iff.mpr ⟨h, clashes_empty ..⟩)
  rw [execCrcm, hstart]
  rfl

/-- Settles O25: CRCM delivers the ring product, whose polynomial has degree below the generator's. -/
theorem crcmIsPolynomialProductModuloGenerator : Obligations.CrcmIsPolynomialProductModuloGenerator :=
  fun a b _ h => ⟨_, _, execCrcm_of_idle a b h, rfl, polynomialOf_ringProduct a b⟩

end Sys2Proof.Machine

/-! # Proofs of the varint encoder family: VENC from START to DONE -/

namespace Sys2Proof.Machine

/-! ### A VENC in flight -/

section
variable (value : Word) (capacity out : Nat) (s : State)

/-- VENC in flight after START and some number of write steps (40_varint_encoder.md R94). -/
def vencAfter : Nat → State
  | 0 => vencStarted value capacity out s
  | k + 1 => vencWrite (vencAfter k)

@[simp] theorem vencAfter_venc (k : Nat) : (vencAfter value capacity out s k).venc =
    { value := value, capacity := capacity, out := out, word := value >>> (7 * k), i := k,
      bytesWritten := s.venc.bytesWritten, status := s.venc.status, busy := true } := by
  induction k with
  | zero => simp [vencAfter, vencStarted]
  | succ k ih => simp [vencAfter, vencWrite, ih, Nat.mul_succ, BitVec.shiftRight_add]

theorem sameBut_vencAfter (k : Nat) : sameBut .venc s (vencAfter value capacity out s k) := by
  induction k with
  | zero => exact sameBut_setVenc s _
  | succ k ih => exact ih.trans (sameBut_vencWrite _)

theorem vencAfter_succ_mem (k : Nat) : (vencAfter value capacity out s (k + 1)).mem =
    memWrite (vencAfter value capacity out s k).mem (byteAddress out k) (canonicalByte value k) := by
  simp [vencAfter, vencWrite, writeIndex, nextVarintByte_eq_canonicalByte]

/-- The first `k` write steps write the first `k` bytes of the canonical sequence (R91, 30_encoding.md R68). -/
theorem memRead_vencAfter_written {k j : Nat} (hj : j < k) :
    memRead (vencAfter value capacity out s k).mem (byteAddress out j) = canonicalByte value j := by
  induction k with
  | zero => omega
  | succ k ih =>
    rw [vencAfter_succ_mem]
    obtain hlt | rfl := Nat.lt_succ_iff_lt_or_eq.mp hj
    · rw [memRead_memWrite_other _ _ (byteAddress_ne _ hlt.ne), ih hlt]
    · exact memRead_memWrite_same ..

theorem memRead_vencAfter_outside {k a : Nat} (ha : a < out ∨ out + k ≤ a) :
    memRead (vencAfter value capacity out s k).mem a = memRead s.mem a := by
  induction k with
  | zero => rfl
  | succ k ih =>
    rw [vencAfter_succ_mem, memRead_memWrite_other _ _ (by unfold byteAddress; omega), ih (by omega)]

/-- What is left of the value is zero from index `L(value)` on (30_encoding.md R64). -/
theorem vencAfter_word_eq_zero_iff {k : Nat} (hk : 0 < k) :
    (vencAfter value capacity out s k).venc.word = 0#32 ↔ canonicalLength value ≤ k := by
  simp [canonicalLength_le_iff, hk]

@[simp] theorem vencDone_vencAfter_venc (k : Nat) : (vencDone (vencAfter value capacity out s k)).venc =
    { value := value, capacity := capacity, out := out, word := value >>> (7 * k), i := k, bytesWritten := some k,
      status := some .ok, busy := false } := by
  simp [vencDone]

/-! ### The whole VENC -/

/-- Short of the terminal byte the loop of R91 goes on. -/
theorem vencLoop_vencStarted (n : Nat) {k : Nat} (hk : k < canonicalLength value) :
    vencLoop (k + n) (vencStarted value capacity out s) = vencLoop n (vencAfter value capacity out s k) := by
  induction k generalizing n with
  | zero => rw [Nat.zero_add, vencAfter]
  | succ k ih =>
    have hmore : (vencWrite (vencAfter value capacity out s k)).venc.word ≠ 0#32 := fun hzero =>
      absurd ((vencAfter_word_eq_zero_iff value capacity out s k.succ_pos).mp hzero) (Nat.not_le.mpr hk)
    rw [Nat.succ_add_eq_add_succ, ih (n + 1) (Nat.lt_of_succ_lt hk)]
    exact if_neg hmore

variable {value capacity out s}

theorem startVenc_of_canStart (h : canStart .venc out capacity s = true) :
    startVenc value capacity out s = .next (vencStarted value capacity out s) := beginOp_of_canStart h

/-- With room for the canonical sequence VENC writes all of it and is done (40_varint_encoder.md R91, R92). -/
theorem execVenc_of_length_le (h : canStart .venc out capacity s = true) (hroom : canonicalLength value ≤ capacity) :
    execVenc value capacity out s = .next (vencDone (vencAfter value capacity out s (canonicalLength value))) := by
  obtain ⟨k, hk⟩ := Nat.exists_eq_add_one_of_ne_zero (canonicalLength_pos value).ne'
  obtain ⟨n, rfl⟩ : ∃ n, capacity = k + (n + 1) := ⟨capacity - (k + 1), by omega⟩
  rw [execVenc, startVenc_of_canStart h, andThen_next, vencLoop_vencStarted _ _ _ _ (n + 1) (hk ▸ k.lt_succ_self), hk]
  exact if_pos ((vencAfter_word_eq_zero_iff value _ out s k.succ_pos).mpr hk.le)

/-- Without that room VENC fills its buffer and ends in the capacity violation (R91, R93). -/
theorem execVenc_of_lt_length (h : canStart .venc out capacity s = true) (hshort : capacity < canonicalLength value) :
    execVenc value capacity out s = endWithError .capacityViolation (vencAfter value capacity out s capacity) := by
  rw [execVenc, startVenc_of_canStart h, andThen_next]
  exact vencLoop_vencStarted value capacity out s 0 hshort

end

/-- Settles O7: with room the canonical sequence is written to its last byte, without it the loop ends in the error. -/
theorem vencWritesCanonicalSequence : Obligations.VencWritesCanonicalSequence := by
  intro value capacity out s hstart
  refine ⟨⟨canonicalLength_pos value, canonicalLength_le_five value⟩, fun hroom => ?_, fun hshort => ?_⟩
  · have hexec := execVenc_of_length_le (value := value) hstart hroom
    obtain ⟨hsame, hframe⟩ := execVenc_frame hexec
    refine ⟨_, hexec, ?_⟩
    simp only [vencDone_vencAfter_venc, true_and]
    exact ⟨fun k hk => memRead_vencAfter_written _ _ _ _ hk, hframe, hsame⟩
  · exact ⟨_, execVenc_of_lt_length hstart hshort⟩

/-- Settles O8: the bytes written lie below `capacity`, and so do those the error leaves free. -/
theorem vencCapacityViolationIsFault : Obligations.VencCapacityViolationIsFault := by
  intro value capacity out s hstart hshort
  obtain ⟨-, hvdec, hcrcu, hcrcm, hagenda, hobserved, -⟩ := sameBut_vencAfter value capacity out s capacity
  refine ⟨_, execVenc_of_lt_length hstart hshort, rfl, rfl, rfl, fun a ha => ?_, ?_⟩
  · rw [setVenc_mem, vencAfter_venc, storeFree_frame _ _ _ ha, memRead_vencAfter_outside _ _ _ _ ha]
  · simp [hvdec, hcrcu, hcrcm, hagenda, hobserved]

end Sys2Proof.Machine

/-! # Proofs of the varint encoder family: VDEC from START to DONE, and after a VENC on the same buffer -/

namespace Sys2Proof.Machine

/-! ### A VDEC in flight -/

section
variable (size inp : Nat) (s : State)

/-- VDEC in flight after START and `k` continuation bytes: `acc` and `ovf` are the magnitude modulo `2^32` and whether it has
left 32 bits (41_varint_decoder.md R102, R106). -/
def vdecAfter (k : Nat) : State :=
  s.setVdec { s.vdec with
    size := size, inp := inp, acc := BitVec.ofNat 32 (magnitude s.mem inp k), ovf := decide (2 ^ 32 ≤ magnitude s.mem inp k),
    i := k, busy := true }

theorem vdecAfter_zero : vdecAfter size inp s 0 = vdecStarted size inp s := rfl

theorem gatherAcc_magnitude (m : Memory) (k : Nat) :
    gatherAcc k (BitVec.ofNat 32 (magnitude m inp k)) (payloadOf (memRead m (byteAddress inp k))) =
      BitVec.ofNat 32 (magnitude m inp (k + 1)) := by
  rw [gatherAcc_ofNat _ (magnitude_lt ..), magnitude_succ]

theorem gatherOvf_magnitude (m : Memory) (k : Nat) :
    gatherOvf k (decide (2 ^ 32 ≤ magnitude m inp k)) (payloadOf (memRead m (byteAddress inp k))) =
      decide (2 ^ 32 ≤ magnitude m inp (k + 1)) := by
  rw [Bool.eq_iff_iff, gatherOvf_iff _ (magnitude_lt ..) decide_eq_true_iff, decide_eq_true_iff, magnitude_succ]

/-- Gathering the payload at index `k` makes `acc` and `ovf` those of the magnitude one index further (R101, R102). -/
theorem vdecGather_vdecAfter (k : Nat) : vdecGather (payloadOf (memRead s.mem (byteAddress inp k))) (vdecAfter size inp s k) =
    (vdecAfter size inp s (k + 1)).setVdec { (vdecAfter size inp s (k + 1)).vdec with i := k } := by
  simp only [vdecGather, vdecAfter, setVdec_vdec, setVdec_setVdec, gatherAcc_magnitude, gatherOvf_magnitude]

theorem vdecContinue_vdecAfter (k : Nat) :
    vdecContinue (payloadOf (memRead s.mem (byteAddress inp k))) (vdecAfter size inp s k) = vdecAfter size inp s (k + 1) := by
  rw [vdecContinue, vdecGather_vdecAfter]
  rfl

/-! ### The whole VDEC -/

variable {size inp s}

/-- Continuation bytes only take the loop of R101 to the next index. -/
theorem vdecLoop_vdecStarted (n : Nat) {k : Nat} (hcont : ∀ j < k, contFlag (memRead s.mem (byteAddress inp j)) = true) :
    vdecLoop (k + n) (vdecStarted size inp s) = vdecLoop n (vdecAfter size inp s k) := by
  induction k generalizing n with
  | zero => rw [Nat.zero_add, vdecAfter_zero]
  | succ k ih =>
    have hnext := vdecLoop_continuation n (s := vdecAfter size inp s k) (hcont k k.lt_succ_self)
    rw [Nat.succ_add_eq_add_succ, ih (n + 1) fun j hj => hcont j (hj.trans k.lt_succ_self), hnext]
    exact congrArg _ (vdecContinue_vdecAfter size inp s k)

theorem startVdec_of_canStart (h : canStart .vdec inp size s = true) :
    startVdec size inp s = .next (vdecStarted size inp s) := beginOp_of_canStart h

/-- Without a terminal byte VDEC ends Truncated once it has read its buffer (41_varint_decoder.md R103). -/
theorem execVdec_of_no_terminal (h : canStart .vdec inp size s = true)
    (hcont : ∀ k < size, contFlag (memRead s.mem (byteAddress inp k)) = true) :
    execVdec size inp s = .next (vdecFail .truncated (vdecAfter size inp s size)) := by
  rw [execVdec, startVdec_of_canStart h, andThen_next]
  exact vdecLoop_vdecStarted 0 hcont

/-- With its first terminal byte at index `n` VDEC ends there (R101). -/
theorem execVdec_of_firstTerminal {n : Nat} (h : canStart .vdec inp size s = true) (hn : n < size)
    (hterm : firstTerminal s.mem inp n) :
    execVdec size inp s = vdecTerminate (payloadOf (memRead s.mem (byteAddress inp n))) (vdecAfter size inp s n) := by
  obtain ⟨m, rfl⟩ : ∃ m, size = n + (m + 1) := ⟨size - (n + 1), by omega⟩
  obtain ⟨hcont, hflag⟩ := hterm
  rw [execVdec, startVdec_of_canStart h, andThen_next, vdecLoop_vdecStarted (m + 1) hcont]
  exact vdecLoop_terminal m hflag

/-- A terminal byte whose magnitude fits 32 bits ends the operation with the magnitude (R102). -/
theorem vdecTerminate_vdecAfter_of_fits {n : Nat} (hfits : magnitude s.mem inp (n + 1) < 2 ^ 32) :
    ∃ t, vdecTerminate (payloadOf (memRead s.mem (byteAddress inp n))) (vdecAfter size inp s n) = .next t ∧
      t.vdec.status = some .ok ∧ t.vdec.value = some (BitVec.ofNat 32 (magnitude s.mem inp (n + 1))) ∧
      t.vdec.bytesConsumed = some (n + 1) := by
  have hovf : (vdecAfter size inp s (n + 1)).vdec.ovf ≠ true := by simpa [vdecAfter] using hfits
  rw [vdecTerminate, vdecGather_vdecAfter]
  exact ⟨_, if_neg hovf, rfl, rfl, rfl⟩

end

/-! ### What a canonical sequence spells -/

section
variable {v : Word} {m : Memory} {base n : Nat}

/-- The groups of a value below index `n` spell its low `7n` bits (30_encoding.md R63, R68). -/
theorem magnitude_of_canonicalBytes (h : ∀ k < n, memRead m (byteAddress base k) = canonicalByte v k) :
    magnitude m base n = v.toNat % 2 ^ (7 * n) := by
  induction n with
  | zero => simp [Nat.mod_one]
  | succ n ih =>
    have hgroup : (groupOf v n).toNat = v.toNat / 2 ^ (7 * n) % 2 ^ 7 := by
      simp [groupOf, Nat.shiftRight_eq_div_pow]
    rw [magnitude_succ, ih fun k hk => h k (hk.trans n.lt_succ_self), h n n.lt_succ_self, canonicalByte, payloadOf_varintByte,
      hgroup, Nat.mul_succ, Nat.pow_add, Nat.mod_mul,
      Nat.mul_comm (2 ^ (7 * n))]

theorem toNat_lt_two_pow_canonicalLength (v : Word) : v.toNat < 2 ^ (7 * canonicalLength v) := by
  rw [← Nat.not_le, ← ushiftRight_ne_zero_iff, not_not]
  exact ((canonicalLength_le_iff v _).mp le_rfl).2

/-- The whole canonical sequence spells its value (R64). -/
theorem magnitude_of_canonicalSequence
    (h : ∀ k < canonicalLength v, memRead m (byteAddress base k) = canonicalByte v k) :
    magnitude m base (canonicalLength v) = v.toNat := by
  rw [magnitude_of_canonicalBytes h, Nat.mod_eq_of_lt (toNat_lt_two_pow_canonicalLength v)]

theorem contFlag_canonicalByte (v : Word) (k : Nat) : contFlag (canonicalByte v k) = decide (k < canonicalLength v - 1) :=
  contFlag_varintByte ..

/-- The only terminal byte of a canonical sequence is its last (R62, R64). -/
theorem firstTerminal_of_canonicalSequence
    (h : ∀ k < canonicalLength v, memRead m (byteAddress base k) = canonicalByte v k) :
    firstTerminal m base (canonicalLength v - 1) := by
  have hpos := canonicalLength_pos v
  refine ⟨fun k hk => ?_, ?_⟩
  · rw [h k (by omega), contFlag_canonicalByte, decide_eq_true hk]
  · rw [h _ (by omega), contFlag_canonicalByte, decide_eq_false (Nat.lt_irrefl _)]

end

/-! ### VDEC after VENC -/

/-- The end of another unit's operation leaves what could be started before it startable. -/
theorem canStart_of_sameBut {u w : UnitId} {base n : Nat} {s t : State} (huw : u ≠ w) (hsame : sameBut w s t)
    (hidle : busyOf w t = false) (h : canStart u base n s = true) : canStart u base n t = true := by
  rw [canStart_iff, ← Bool.not_eq_true (clashes _ _ _ _), clashes_iff] at h ⊢
  obtain ⟨hu, hclash⟩ := h
  refine ⟨(hsame.unit huw).busyOf.trans hu, ?_⟩
  rintro ⟨x, hxu, hbusy, hover⟩
  by_cases hx : x = w
  · subst hx
    exact Bool.false_ne_true (hidle.symm.trans hbusy)
  · have hsx := hsame.unit hx
    exact hclash ⟨x, hxu, hsx.busyOf.symm.trans hbusy, hsx.bufferOf ▸ hover⟩

/-- After VENC with room for any value VDEC can be started where it could before, on the canonical sequence of the value. -/
theorem execVenc_then_canStart_vdec {value : Word} {capacity size buf : Nat} {s : State}
    (hvenc : canStart .venc buf capacity s = true) (hvdec : canStart .vdec buf size s = true) (hroom : 5 ≤ capacity) :
    ∃ t, execVenc value capacity buf s = .next t ∧ t.venc.bytesWritten = some (canonicalLength value) ∧
      canStart .vdec buf size t = true ∧
      ∀ k < canonicalLength value, memRead t.mem (byteAddress buf k) = canonicalByte value k := by
  have hexec := execVenc_of_length_le hvenc ((canonicalLength_le_five value).trans hroom)
  obtain ⟨hsame, -⟩ := execVenc_frame hexec
  exact ⟨_, hexec, by rw [vencDone_vencAfter_venc], canStart_of_sameBut (by decide) hsame rfl hvdec,
    fun k hk => memRead_vencAfter_written _ _ _ _ hk⟩

/-- Settles O29: the canonical sequence ends at its last byte and spells the value. -/
theorem decodeAfterEncodeReturnsTheValue : Obligations.DecodeAfterEncodeReturnsTheValue := by
  intro value capacity size buf s hvenc hvdec hroom hsize
  obtain ⟨t, hexec, hwritten, hstart, hbytes⟩ := execVenc_then_canStart_vdec (value := value) hvenc hvdec hroom
  have hlast : canonicalLength value - 1 + 1 = canonicalLength value := Nat.sub_add_cancel (canonicalLength_pos value)
  have hmag : magnitude t.mem buf (canonicalLength value - 1 + 1) = value.toNat := by
    rw [hlast, magnitude_of_canonicalSequence hbytes]
  obtain ⟨u, hterm, hstatus, hvalue, hconsumed⟩ := vdecTerminate_vdecAfter_of_fits (size := size) (hmag ▸ value.isLt)
  rw [hmag, BitVec.ofNat_toNat, BitVec.setWidth_eq] at hvalue
  rw [hlast] at hconsumed
  exact ⟨t, u, hexec,
    (execVdec_of_firstTerminal hstart (by omega) (firstTerminal_of_canonicalSequence hbytes)).trans hterm, hwritten, hstatus,
    hvalue, hconsumed⟩

/-- Settles O30: the bytes of a canonical sequence before its last are continuation bytes. -/
theorem properPrefixOfEncodingIsTruncated : Obligations.ProperPrefixOfEncodingIsTruncated := by
  intro value capacity size buf s hvenc hvdec hroom _ _ hshort
  obtain ⟨t, hexec, -, hstart, hbytes⟩ := execVenc_then_canStart_vdec (value := value) hvenc hvdec hroom
  obtain ⟨hcont, -⟩ := firstTerminal_of_canonicalSequence hbytes
  exact ⟨t, _, hexec, execVdec_of_no_terminal hstart fun k hk => hcont k (by omega), rfl, rfl, rfl⟩

end Sys2Proof.Machine

/-! # Proofs of the varint encoder family: START alone, and an operation as its START and the steps of its unit -/

namespace Sys2Proof.Machine

/-! ### START alone -/

/-- Settles O33: the four operation codes; START asks about the units, not about the moves pending. -/
theorem startLoadsTheUnit : Obligations.StartLoadsTheUnit := by
  rintro ⟨cmdOp, value, capacity, size, accIn, a, b, buffer⟩ rest s hagenda
  rw [step_of_agenda hagenda]
  refine ⟨?_, ?_, ?_, ?_⟩ <;> rintro rfl hstart
  · exact beginOp_of_canStart (s := s.setAgenda rest) hstart
  · exact beginOp_of_canStart (s := s.setAgenda rest) hstart
  · exact beginOp_of_canStart (s := s.setAgenda rest) hstart
  · exact beginOp_of_canStart (s := s.setAgenda rest) (canStart_iff.mpr ⟨hstart, clashes_empty ..⟩)

/-! ### VENC -/

/-- Up to its terminal byte and within its buffer every step of VENC is a write step (40_varint_encoder.md R94). -/
theorem tickTimes_vencStarted (value : Word) (capacity out n : Nat) (s : State) {k : Nat} (hlen : k ≤ canonicalLength value)
    (hroom : k ≤ capacity) : tickTimes .venc (k + n) (vencStarted value capacity out s) =
      tickTimes .venc n (vencAfter value capacity out s k) := by
  induction k generalizing n with
  | zero => rw [Nat.zero_add, vencAfter]
  | succ k ih =>
    have hwrite : tick .venc (vencAfter value capacity out s k) = .next (vencAfter value capacity out s (k + 1)) := by
      refine tick_vencWrite (by rw [vencAfter_venc]) ?_ (by rwa [vencAfter_venc])
      rw [vencAfter_venc, ← canonicalLength_le_iff]
      exact Nat.not_le.mpr hlen
    rw [Nat.succ_add_eq_add_succ, ih (n + 1) (Nat.le_of_succ_le hlen) (Nat.le_of_succ_le hroom),
      tickTimes_succ_of_tick hwrite]

theorem execVenc_eq_tickTimes {value : Word} {capacity out : Nat} {s : State} (h : canStart .venc out capacity s = true) :
    andThen (startVenc value capacity out s) (tickTimes .venc (min (canonicalLength value) capacity + 1)) =
      execVenc value capacity out s := by
  rw [startVenc_of_canStart h, andThen_next, tickTimes_vencStarted _ _ _ _ _ (Nat.min_le_left ..) (Nat.min_le_right ..),
    tickTimes_one]
  obtain hroom | hshort := Nat.lt_or_ge capacity (canonicalLength value) |>.symm
  · rw [Nat.min_eq_left hroom, execVenc_of_length_le h hroom]
    refine tick_vencDone (by rw [vencAfter_venc]) ⟨?_, ?_⟩
    · rw [vencAfter_venc]
      exact canonicalLength_pos value
    · exact (vencAfter_word_eq_zero_iff _ _ _ _ (canonicalLength_pos value)).mpr le_rfl
  · rw [Nat.min_eq_right hshort.le, execVenc_of_lt_length h hshort]
    refine tick_vencFull (by rw [vencAfter_venc]) ?_ (by rw [vencAfter_venc])
    rw [vencAfter_venc, ← canonicalLength_le_iff]
    exact Nat.not_le.mpr hshort

/-! ### VDEC -/

/-- A step of VDEC that reads a continuation byte goes to the next index (41_varint_decoder.md R106). -/
theorem tickTimes_vdecStarted {size inp : Nat} {s : State} (n : Nat) {k : Nat} (hk : k ≤ size)
    (hcont : ∀ j < k, contFlag (memRead s.mem (byteAddress inp j)) = true) :
    tickTimes .vdec (k + n) (vdecStarted size inp s) = tickTimes .vdec n (vdecAfter size inp s k) := by
  induction k generalizing n with
  | zero => rw [Nat.zero_add, vdecAfter_zero]
  | succ k ih =>
    have hcontinue : tick .vdec (vdecAfter size inp s k) = .next (vdecAfter size inp s (k + 1)) := by
      rw [← vdecContinue_vdecAfter]
      exact tick_vdec_continuation rfl hk (hcont k k.lt_succ_self)
    rw [Nat.succ_add_eq_add_succ, ih (n + 1) (Nat.le_of_succ_le hk) fun j hj => hcont j (hj.trans k.lt_succ_self),
      tickTimes_succ_of_tick hcontinue]

theorem execVdec_eq_tickTimes_of_no_terminal {size inp : Nat} {s : State} (h : canStart .vdec inp size s = true)
    (hcont : ∀ k < size, contFlag (memRead s.mem (byteAddress inp k)) = true) :
    andThen (startVdec size inp s) (tickTimes .vdec (size + 1)) = execVdec size inp s := by
  rw [startVdec_of_canStart h, andThen_next, tickTimes_vdecStarted 1 le_rfl hcont, tickTimes_one,
    execVdec_of_no_terminal h hcont]
  exact tick_vdec_used_up rfl le_rfl

theorem execVdec_eq_tickTimes_of_firstTerminal {size inp n : Nat} {s : State} (h : canStart .vdec inp size s = true)
    (hn : n < size) (hterm : firstTerminal s.mem inp n) :
    andThen (startVdec size inp s) (tickTimes .vdec (n + 1)) = execVdec size inp s := by
  rw [startVdec_of_canStart h, andThen_next, tickTimes_vdecStarted 1 hn.le hterm.1, tickTimes_one,
    execVdec_of_firstTerminal h hn hterm]
  exact tick_vdec_terminal rfl hn hterm.2

/-! ### CRCU -/

theorem execCrcu_eq_tickTimes (accIn : Word) {size inp : Nat} {s : State} (h : canStart .crcu inp size s = true) :
    andThen (startCrcu accIn size inp s) (tickTimes .crcu (size + 1)) = execCrcu accIn size inp s := by
  have hstart : startCrcu accIn size inp s = .next (crcuStarted accIn size inp s) := beginOp_of_canStart h
  rw [execCrcu, hstart, andThen_next, andThen_next]
  exact tickTimes_crcu_eq_crcuLoop size _ rfl (Nat.zero_add _)

/-! ### CRCM -/

/-- The reduction in the steps of any variant is the bitwise one (43_crc32c_ring_multiply.md R143). -/
theorem reduceBy_eq_reduce (v : CrcVariant) (z : Wide) : reduceBy v z = reduce z := by
  have hstep : reduceStep v = (reduceStep .bitwise)^[v.bitsPerStep] := funext (reduceStep_eq_iterate v)
  rw [reduceBy, hstep, ← Function.iterate_mul, Nat.mul_div_cancel' (bitsPerStep_dvd v)]
  rfl

/-- A CRCM in flight with `n` reduction steps left makes them and then its DONE (43_crc32c_ring_multiply.md R147). -/
theorem tickTimes_crcm (n : Nat) (s : State) (hbusy : s.crcm.busy = true)
    (hk : s.crcm.k.toNat = n * Config.crcVariant.bitsPerStep) :
    tickTimes .crcm (n + 1) s = .next (crcmDone (s.setCrcm { s.crcm with
      z := (reduceStep Config.crcVariant)^[n] s.crcm.z, k := 0#6 })) := by
  induction n generalizing s with
  | zero =>
    have hzero : s.crcm.k = 0#6 := BitVec.eq_of_toNat_eq (hk.trans (Nat.zero_mul _))
    rw [tickTimes_one, tick_crcm hbusy, tickCrcm, if_pos hzero, ← hzero]
    rfl
  | succ n ih =>
    have hpos : 0 < Config.crcVariant.bitsPerStep := by cases Config.crcVariant <;> decide
    have hbits : Config.crcVariant.bitsPerStep ≤ s.crcm.k.toNat := hk ▸ Nat.le_mul_of_pos_left _ n.succ_pos
    have hleft : s.crcm.k ≠ 0#6 := by
      intro hzero
      rw [hzero] at hbits
      exact Nat.not_le.mpr hpos hbits
    have hreduce : tick .crcm s = .next (crcmReduceStep s) := by rw [tick_crcm hbusy, tickCrcm, if_neg hleft]
    rw [tickTimes_succ_of_tick hreduce]
    refine ih (crcmReduceStep s) hbusy ((toNat_sub_bitsPerStep hbits).trans ?_)
    rw [hk, Nat.succ_mul, Nat.add_sub_cancel]

theorem execCrcm_eq_tickTimes (a b : Word) {s : State} (h : s.crcm.busy = false) :
    andThen (startCrcm a b s) (tickTimes .crcm (32 / Config.crcVariant.bitsPerStep + 1)) = execCrcm a b s := by
  have hstart : startCrcm a b s = .next (crcmStarted a b s) :=
    beginOp_of_canStart (canStart_iff.mpr ⟨h, clashes_empty ..⟩)
  have hsteps := tickTimes_crcm (32 / Config.crcVariant.bitsPerStep) (crcmStarted a b s) rfl
    (Nat.div_mul_cancel (bitsPerStep_dvd _)).symm
  have hz : (reduceStep Config.crcVariant)^[32 / Config.crcVariant.bitsPerStep] (wideProduct a b) =
      reduce (wideProduct a b) := reduceBy_eq_reduce Config.crcVariant _
  rw [execCrcm, hstart, andThen_next, andThen_next, hsteps]
  simp only [crcmReduceAll, crcmStarted, setCrcm_crcm, hz]

/-- Settles O36, operation by operation: the loop of the rule and the steps pass through the same states in flight. -/
theorem wholeOperationIsStartAndSteps : Obligations.WholeOperationIsStartAndSteps :=
  ⟨fun _ _ _ _ h => execVenc_eq_tickTimes h,
    fun _ _ _ h => ⟨execVdec_eq_tickTimes_of_no_terminal h, fun _ hn => execVdec_eq_tickTimes_of_firstTerminal h hn⟩,
    fun accIn _ _ _ h => execCrcu_eq_tickTimes accIn h, fun a b _ h => execCrcm_eq_tickTimes a b h⟩

end Sys2Proof.Machine

/-! # Proofs of the varint encoder family: with capacities of 5 and more no step is a capacity violation -/

namespace Sys2Proof.Machine

/-! ### Ample outcomes -/

/-- The outcome is not the capacity violation, and a next state has ample capacities again. -/
def ampleResult (r : Result) : Prop :=
  (∀ t, r ≠ .fault (.capacityViolation t)) ∧ ∀ t, r = .next t → capacitiesAmple t

theorem ampleResult_next {t : State} (h : capacitiesAmple t) : ampleResult (.next t) := by
  simpa [ampleResult] using h

theorem ampleResult_refused (e : Refusal) : ampleResult (.refused e) := by
  simp [ampleResult]

theorem ampleResult_noValue (r : ResultReg) : ampleResult (.fault (.noValue r)) := by
  simp [ampleResult]

theorem capacitiesAmple_of_eq {s t : State} (h : capacitiesAmple s) (hvenc : t.venc = s.venc) (hagenda : t.agenda = s.agenda) :
    capacitiesAmple t := by
  rwa [capacitiesAmple, hvenc, hagenda]

theorem capacitiesAmple_of_idle {s t : State} (h : capacitiesAmple s) (hidle : t.venc.busy = false)
    (hagenda : t.agenda = s.agenda) : capacitiesAmple t :=
  ⟨fun hbusy => absurd (hidle.symm.trans hbusy) Bool.false_ne_true, hagenda ▸ h.2⟩

/-! ### A step of a unit -/

/-- A VENC in flight with 5 bytes or more has written its terminal byte when its buffer is used up
(40_varint_encoder.md R97). -/
theorem tick_venc_progress {s : State} (h : VencInv s) (hample : s.venc.busy = true → 5 ≤ s.venc.capacity) :
    ∃ t, tick .venc s = .next t := by
  cases hbusy : s.venc.busy
  · exact ⟨s, tick_idle hbusy⟩
  · by_cases hroom : s.venc.i < s.venc.capacity
    · exact tick_progress (.inr hroom)
    · have hwritten : canonicalLength s.venc.value ≤ s.venc.i :=
        (canonicalLength_le_five _).trans ((hample hbusy).trans (Nat.not_lt.mp hroom))
      exact ⟨_, tick_vencDone hbusy ((h.terminal_written_iff hbusy).mpr hwritten)⟩

/-- A step starts no operation and keeps the operands of those in flight. -/
theorem UnitStep.capacitiesAmple {u : UnitId} {s t : State} (hstep : UnitStep u s t) (h : capacitiesAmple s) :
    capacitiesAmple t := by
  obtain ⟨hvenc, hagenda⟩ := h
  obtain ⟨⟨-, hcapacity, -⟩, -⟩ := hstep.sameOperands
  refine ⟨fun hbusy => ?_, hstep.sameBut.agenda ▸ hagenda⟩
  rw [hcapacity]
  by_cases hu : u = .venc
  · subst hu
    exact hvenc (hstep.busyOf hbusy)
  · exact hvenc ((hstep.sameBut.unit (Ne.symm hu)).busyOf.symm.trans hbusy)

theorem tick_ample {s : State} (u : UnitId) (hinv : Invariant s) (h : capacitiesAmple s) : ampleResult (tick u s) := by
  obtain ⟨t, ht, hstep⟩ | ⟨rfl, -, hnone⟩ := tick_cases u s
  · rw [ht]
    exact ampleResult_next (hstep.capacitiesAmple h)
  · obtain ⟨t, ht⟩ := tick_venc_progress hinv.venc h.1
    exact absurd ht (hnone t)

/-! ### START and whole operations -/

theorem beginOp_of_not_canStart {u : UnitId} {base n : Nat} {s started : State} (h : canStart u base n s = false) :
    ∃ e, beginOp u base n s started = .refused e := by
  obtain ⟨-, hrefused⟩ | ⟨-, -, hrefused⟩ | ⟨hstart, -⟩ := beginOp_cases u base n s started
  · exact ⟨_, hrefused⟩
  · exact ⟨_, hrefused⟩
  · cases h.symm.trans hstart

theorem beginOp_ample {u : UnitId} {base n : Nat} {s started : State} (h : capacitiesAmple started) :
    ampleResult (beginOp u base n s started) := by
  cases hstart : canStart u base n s
  · obtain ⟨e, hrefused⟩ := beginOp_of_not_canStart (started := started) hstart
    exact hrefused ▸ ampleResult_refused e
  · exact beginOp_of_canStart hstart ▸ ampleResult_next h

/-- A whole operation is refused at its START, or is one that could be started. -/
theorem andThen_beginOp_ample {u : UnitId} {base n : Nat} {s started : State} {f : State → Result}
    (h : canStart u base n s = true → ∃ t, andThen (beginOp u base n s started) f = .next t ∧ capacitiesAmple t) :
    ampleResult (andThen (beginOp u base n s started) f) := by
  cases hstart : canStart u base n s
  · obtain ⟨e, hrefused⟩ := beginOp_of_not_canStart (started := started) hstart
    rw [hrefused]
    exact ampleResult_refused e
  · obtain ⟨t, ht, hample⟩ := h hstart
    exact ht ▸ ampleResult_next hample

theorem tickTimes_progress {u : UnitId} (hu : u ≠ .venc) (n : Nat) (s : State) : ∃ t, tickTimes u n s = .next t := by
  induction n generalizing s with
  | zero => exact ⟨s, rfl⟩
  | succ n ih =>
    obtain ⟨s', hs'⟩ := tick_progress (s := s) (.inl hu)
    rw [tickTimes_succ_of_tick hs']
    exact ih s'

/-- A VDEC that can be started ends in a next state, whatever it reads (41_varint_decoder.md R102, R103). -/
theorem execVdec_of_canStart {size inp : Nat} {s : State} (h : canStart .vdec inp size s = true) :
    ∃ t, execVdec size inp s = .next t := by
  obtain ⟨k, hk⟩ := vdecLoop_eq_tickTimes size (vdecStarted size inp s) rfl (Nat.zero_add _)
  rw [execVdec, startVdec_of_canStart h, andThen_next, ← hk]
  exact tickTimes_progress (by decide) k _

/-- The operation code names VENC only with an ample capacity (30_encoding.md R75). -/
theorem five_le_capacity {e : StartEvent} (he : moveAmple (.start e) = true) (hop : e.cmdOp.toNat = 0) :
    5 ≤ e.capacity :=
  (of_decide_eq_true he).resolve_left (not_not.mpr (BitVec.eq_of_toNat_eq hop))

theorem startOnly_ample {e : StartEvent} {s : State} (h : capacitiesAmple s) (he : moveAmple (.start e) = true) :
    ampleResult (startOnly (decodeStart e) s) := by
  unfold decodeStart
  split
  · next hop => exact beginOp_ample ⟨fun _ => five_le_capacity he hop, h.2⟩
  · exact beginOp_ample (capacitiesAmple_of_eq h rfl rfl)
  · exact beginOp_ample (capacitiesAmple_of_eq h rfl rfl)
  · exact beginOp_ample (capacitiesAmple_of_eq h rfl rfl)

/-- VENC ends idle, having had room for the canonical sequence; no other operation touches it. -/
theorem call_ample {e : StartEvent} {s : State} (h : capacitiesAmple s) (he : moveAmple (.start e) = true) :
    ampleResult (exec (decodeStart e) s) := by
  unfold decodeStart
  split <;> refine andThen_beginOp_ample fun hstart => ?_
  · next hop =>
    have hexec := execVenc_of_length_le (value := e.value) hstart
      ((canonicalLength_le_five _).trans (five_le_capacity he hop))
    obtain ⟨hsame, -⟩ := execVenc_frame hexec
    exact ⟨_, hexec, capacitiesAmple_of_idle h rfl hsame.agenda⟩
  · obtain ⟨t, hexec⟩ := execVdec_of_canStart hstart
    obtain ⟨hsame, -⟩ := execVdec_frame hexec
    exact ⟨t, hexec, capacitiesAmple_of_eq h (hsame.unit (w := .venc) (by decide)) hsame.agenda⟩
  · exact ⟨_, execCrcu_of_canStart e.accIn hstart, capacitiesAmple_of_eq h rfl rfl⟩
  · exact ⟨_, execCrcm_of_idle e.a e.b (canStart_iff.mp hstart).1, capacitiesAmple_of_eq h rfl rfl⟩

/-! ### A move of the agenda -/

theorem readResult_ample {s : State} (r : ResultReg) (h : capacitiesAmple s) : ampleResult (readResult r s) := by
  obtain ⟨v, -, -, hnext⟩ | ⟨-, hfault⟩ := readResult_cases r s
  · exact hnext ▸ ampleResult_next (capacitiesAmple_of_eq h rfl rfl)
  · exact hfault ▸ ampleResult_noValue r

theorem hostLoad_ample {s : State} (a : Nat) (h : capacitiesAmple s) : ampleResult (hostLoad a s) := by
  obtain ⟨-, -, hrefused⟩ | ⟨-, hnext⟩ := hostLoad_cases a s
  · exact hrefused ▸ ampleResult_refused _
  · exact hnext ▸ ampleResult_next (capacitiesAmple_of_eq h rfl rfl)

theorem hostStore_ample {s : State} (a : Nat) (d : Byte) (h : capacitiesAmple s) : ampleResult (hostStore a d s) := by
  obtain ⟨w, -, -, hrefused⟩ | ⟨-, hnext⟩ := hostStore_cases a d s
  · exact hrefused ▸ ampleResult_refused _
  · exact hnext ▸ ampleResult_next (capacitiesAmple_of_eq h rfl rfl)

theorem resetBlock_ample {s : State} (h : capacitiesAmple s) : capacitiesAmple (resetBlock s) := by
  obtain ⟨hvenc, -, -, -, hagenda, -⟩ := resetBlock_spec s
  exact capacitiesAmple_of_idle h (congrArg VencUnit.busy hvenc) hagenda

theorem move_ample {v : Move} {s : State} (hinv : Invariant s) (h : capacitiesAmple s) (hv : moveAmple v = true) :
    ampleResult (perform (moveAction v s)) := by
  cases v with
  | call e => exact call_ample h hv
  | start e => exact startOnly_ample h hv
  | tick u => exact tick_ample u hinv h
  | readResult r => exact readResult_ample r h
  | load a => exact hostLoad_ample a h
  | store a d => exact hostStore_ample a d h
  | reset => exact ampleResult_next (resetBlock_ample h)

/-- Settles O45, move by move. -/
theorem ampleCapacitiesNeverFault : Obligations.AmpleCapacitiesNeverFault := by
  intro s hinv h
  change ampleResult (step s)
  cases hagenda : s.agenda with
  | nil =>
    obtain ⟨u, htick⟩ | hidle := step_of_no_agenda hagenda
    · exact htick ▸ tick_ample u hinv h
    · exact hidle ▸ ampleResult_next h
  | cons v rest =>
    obtain ⟨hvenc, hmoves⟩ := h
    have hpending := hinv.pending
    rw [hagenda, List.forall_mem_cons] at hmoves hpending
    rw [step_of_agenda hagenda]
    exact move_ample (hinv.setAgenda hpending.2) ⟨hvenc, hmoves.2⟩ hmoves.1

end Sys2Proof.Machine

/-! # Proofs of the varint decoder family: one byte of a decode in flight, and VDEC's results -/

namespace Sys2Proof.Machine

/-! ### Gathering a payload (41_varint_decoder.md R101) -/

section
variable {i : Nat} (acc : Word) (ovf : Bool) (p : Payload)

theorem gather_of_le_three (hi : i ≤ 3) :
    gatherAcc i acc p = acc ||| (p.setWidth 32 <<< (7 * i)) ∧ gatherOvf i ovf p = ovf :=
  ⟨if_pos hi, if_pos hi⟩

theorem gather_of_eq_four (hi : i = 4) :
    gatherAcc i acc p = acc ||| ((p.extractLsb' 0 4).setWidth 32 <<< 28) ∧
      gatherOvf i ovf p = (ovf || decide (p.extractLsb' 4 3 ≠ 0#3)) := by
  subst hi
  exact ⟨rfl, by rw [decide_not]; rfl⟩

theorem gather_of_five_le (hi : 5 ≤ i) :
    gatherAcc i acc p = acc ∧ gatherOvf i ovf p = (ovf || decide (p ≠ 0#7)) := by
  have hlow : ¬i ≤ 3 := by omega
  have hfour : i ≠ 4 := by omega
  rw [gatherAcc, gatherOvf, if_neg hlow, if_neg hlow, if_neg hfour, if_neg hfour, decide_not]
  exact ⟨rfl, rfl⟩

end

/-! ### One byte of a decode in flight -/

/-- Settles O12: the step of R106 on a continuation byte, with the payload gathered as R101 says for each index. -/
theorem continuationByteAdvancesDecode : Obligations.ContinuationByteAdvancesDecode := by
  intro p s hbusy hdue
  have hexec : exec (.varintCont p) s = .next (vdecContinue p s) := if_pos (byteDue_iff.mpr ⟨hbusy, hdue⟩)
  exact ⟨_, hexec, sameBut_setVdec s _, fun _ => rfl, rfl, hbusy, rfl, rfl, rfl, rfl, rfl,
    gather_of_le_three s.vdec.acc s.vdec.ovf p, gather_of_eq_four s.vdec.acc s.vdec.ovf p,
    gather_of_five_le s.vdec.acc s.vdec.ovf p⟩

theorem vdecTerminate_progress (p : Payload) (s : State) : ∃ t, vdecTerminate p s = .next t := by
  obtain ⟨-, hcorrupt⟩ | ⟨-, hdone⟩ := vdecTerminate_cases p s
  · exact ⟨_, hcorrupt⟩
  · exact ⟨_, hdone⟩

/-- What a terminal byte makes of the operand and working registers, whether the value fits or not (R101, R106). -/
theorem vdecTerminate_registers {p : Payload} {s t : State} (h : vdecTerminate p s = .next t) :
    t.vdec.busy = false ∧ t.vdec.size = s.vdec.size ∧ t.vdec.inp = s.vdec.inp ∧ t.vdec.i = s.vdec.i ∧
      t.vdec.acc = gatherAcc s.vdec.i s.vdec.acc p ∧ t.vdec.ovf = gatherOvf s.vdec.i s.vdec.ovf p := by
  obtain ⟨-, hcorrupt⟩ | ⟨-, hdone⟩ := vdecTerminate_cases p s
  · cases hcorrupt.symm.trans h
    exact ⟨rfl, rfl, rfl, rfl, rfl, rfl⟩
  · cases hdone.symm.trans h
    exact ⟨rfl, rfl, rfl, rfl, rfl, rfl⟩

/-- The overflow check decides what a terminal byte delivers (R101, R104, R110). -/
theorem vdecTerminate_results {p : Payload} {s t : State} (h : vdecTerminate p s = .next t) :
    (t.vdec.ovf = true → t.vdec.status = some .corrupt ∧ t.vdec.value = none ∧ t.vdec.bytesConsumed = none) ∧
      (t.vdec.ovf = false → t.vdec.status = some .ok ∧ t.vdec.value = some t.vdec.acc ∧
        t.vdec.bytesConsumed = some (s.vdec.i + 1)) := by
  obtain ⟨hovf, hcorrupt⟩ | ⟨hovf, hdone⟩ := vdecTerminate_cases p s
  · cases hcorrupt.symm.trans h
    exact ⟨fun _ => ⟨rfl, rfl, rfl⟩, fun hfits => absurd (hovf.symm.trans hfits) (by decide)⟩
  · cases hdone.symm.trans h
    exact ⟨fun hover => absurd (hovf.symm.trans hover) (by decide), fun _ => ⟨rfl, rfl, rfl⟩⟩

/-- Settles O13: the end of R101 on a terminal byte, with the payload gathered as R101 says for each index. -/
theorem terminalByteEndsDecode : Obligations.TerminalByteEndsDecode := by
  intro p s hbusy hdue
  obtain ⟨t, hend⟩ := vdecTerminate_progress p s
  have hexec : execVarintTerm p s = .next t := (if_pos (byteDue_iff.mpr ⟨hbusy, hdue⟩)).trans hend
  obtain ⟨hsame, hmem⟩ := execVarintTerm_frame hexec
  obtain ⟨hidle, hsize, hinp, hi, hacc, hovf⟩ := vdecTerminate_registers hend
  refine ⟨t, hexec, hsame, fun a => by rw [hmem], hidle, hsize, hinp, hi, ?_, ?_, ?_, vdecTerminate_results hend⟩
  · exact hacc ▸ hovf ▸ gather_of_le_three s.vdec.acc s.vdec.ovf p
  · exact hacc ▸ hovf ▸ gather_of_eq_four s.vdec.acc s.vdec.ovf p
  · exact hacc ▸ hovf ▸ gather_of_five_le s.vdec.acc s.vdec.ovf p

/-! ### The whole VDEC -/

/-- Every end of the loop of R101 leaves the decoder idle with its operands. -/
theorem vdecLoop_registers {n : Nat} {s t : State} (h : vdecLoop n s = .next t) :
    t.vdec.busy = false ∧ t.vdec.size = s.vdec.size ∧ t.vdec.inp = s.vdec.inp := by
  induction n generalizing s with
  | zero =>
    cases h
    exact ⟨rfl, rfl, rfl⟩
  | succ n ih =>
    cases hflag : contFlag (vdecByte s)
    · rw [vdecLoop_terminal n hflag] at h
      obtain ⟨hidle, hsize, hinp, -⟩ := vdecTerminate_registers h
      exact ⟨hidle, hsize, hinp⟩
    · rw [vdecLoop_continuation n hflag] at h
      exact ih (s := vdecContinue (payloadOf (vdecByte s)) s) h

section
variable {size inp : Nat} {s t : State}

theorem execVdec_registers (h : execVdec size inp s = .next t) :
    t.vdec.busy = false ∧ t.vdec.size = size ∧ t.vdec.inp = inp := by
  obtain ⟨s', hstart, hloop⟩ := andThen_eq_next h
  obtain ⟨-, rfl⟩ := beginOp_eq_next hstart
  exact vdecLoop_registers hloop

/-- With its first terminal byte at index `n` VDEC delivers the magnitude of the bytes up to it, or Corrupt where that has left
32 bits (R102). -/
theorem vdecTerminate_vdecAfter_results {n : Nat}
    (h : vdecTerminate (payloadOf (memRead s.mem (byteAddress inp n))) (vdecAfter size inp s n) = .next t) :
    (2 ^ 32 ≤ magnitude s.mem inp (n + 1) →
      t.vdec.status = some .corrupt ∧ t.vdec.value = none ∧ t.vdec.bytesConsumed = none) ∧
    (magnitude s.mem inp (n + 1) < 2 ^ 32 →
      t.vdec.status = some .ok ∧ t.vdec.value = some (BitVec.ofNat 32 (magnitude s.mem inp (n + 1))) ∧
      t.vdec.bytesConsumed = some (n + 1)) := by
  obtain ⟨-, -, -, -, hacc, hovf⟩ := vdecTerminate_registers h
  obtain ⟨hcorrupt, hok⟩ := vdecTerminate_results h
  replace hacc := hacc.trans (gatherAcc_magnitude inp s.mem n)
  replace hovf := hovf.trans (gatherOvf_magnitude inp s.mem n)
  rw [hacc] at hok
  exact ⟨fun hover => hcorrupt (hovf.trans (decide_eq_true hover)),
    fun hfits => hok (hovf.trans (decide_eq_false (Nat.not_le.mpr hfits)))⟩

end

/-- Settles O9: VDEC always ends; which end it is depends on the first terminal byte of its buffer. -/
theorem vdecReturnsTheMagnitude : Obligations.VdecReturnsTheMagnitude := by
  intro size inp s hstart
  obtain ⟨t, hexec⟩ := execVdec_of_canStart hstart
  obtain ⟨hsame, hmem⟩ := execVdec_frame hexec
  obtain ⟨hidle, hsize, hinp⟩ := execVdec_registers hexec
  refine ⟨t, hexec, hidle, hsize, hinp, hsame, fun a => by rw [hmem], fun hcont => ?_, fun n hn hterm => ?_⟩
  · cases (execVdec_of_no_terminal hstart hcont).symm.trans hexec
    exact ⟨rfl, rfl, rfl⟩
  · exact vdecTerminate_vdecAfter_results ((execVdec_of_firstTerminal hstart hn hterm).symm.trans hexec)

/-- Settles O10: the Truncated end of O9, reported as the build says. -/
theorem vdecWithoutTerminalByteIsTruncated : Obligations.VdecWithoutTerminalByteIsTruncated := by
  intro size inp s hstart hcont
  obtain ⟨t, hexec, hidle, -, -, -, -, htruncated, -⟩ := vdecReturnsTheMagnitude size inp s hstart
  obtain ⟨hstatus, -⟩ := htruncated hcont
  exact ⟨t, hexec, fun hunify => by simp [hstatus, hunify], fun hunify => by simp [hstatus, hunify], hidle⟩

end Sys2Proof.Machine

/-! # Proofs of the checksum family: the byte step by table lookup -/

namespace Sys2Proof.Machine

theorem iterate_bitstep_xor (n : Nat) (c d : Word) : bitstep^[n] (c ^^^ d) = bitstep^[n] c ^^^ bitstep^[n] d :=
  (Function.Semiconj₂.iterate (op := (· ^^^ ·)) bitstep_xor n) c d

theorem lowWord_setWidth (c : Word) : lowWord (c.setWidth 64) = c := by simp [lowWord]

/-- `n` bit steps at once: the high bits move down, the low bits are looked up (42_crc32c_core.md R125, R128). -/
theorem iterate_bitstep_eq_lookup {n : Nat} (hn : n ≤ 32) (c : Word) :
    bitstep^[n] c = (c >>> n) ^^^ bitstep^[n] ((c.extractLsb' 0 n).setWidth 32) := by
  have hlow : lowBits n (c.setWidth 64) = (c.extractLsb' 0 n).setWidth 32 := by
    refine BitVec.eq_of_getLsbD_eq fun i hi => ?_
    simp [lowBits, hi, show i < 64 by omega]
  have hshift : (c.setWidth 64 : Wide) >>> n = (c >>> n).setWidth 64 := by
    refine BitVec.eq_of_toNat_eq ?_
    simp
  have hwide := iterate_reduceStep_eq_lookup hn (c.setWidth 64)
  rw [iterate_reduceStep_setWidth, hlow, hshift, ← BitVec.setWidth_xor] at hwide
  rw [← lowWord_setWidth (bitstep^[n] c), hwide, lowWord_setWidth]

/-- Bits as many as the steps do not reach the shifted part, so a lookup takes them in first (R125, R128). -/
theorem lookup_eq_iterate_bitstep {n : Nat} (hn : n ≤ 32) (c : Word) (d : BitVec n) :
    (c >>> n) ^^^ bitstep^[n] (((c ^^^ d.setWidth 32).extractLsb' 0 n).setWidth 32) = bitstep^[n] (c ^^^ d.setWidth 32) := by
  have hout : d.setWidth 32 >>> n = 0#32 := by
    refine BitVec.eq_of_getLsbD_eq fun i _ => ?_
    simp
  rw [iterate_bitstep_eq_lookup hn (c ^^^ d.setWidth 32), BitVec.ushiftRight_xor_distrib, hout, BitVec.xor_zero]

theorem bytestepLarge_eq_bytestep (c : Word) (d : Byte) : bytestepLarge c d = bytestep c d :=
  lookup_eq_iterate_bitstep (by decide) c d

theorem nibblestep_eq_iterate_bitstep (c : Word) (n : BitVec 4) :
    nibblestep c n = bitstep^[4] (c ^^^ n.setWidth 32) :=
  lookup_eq_iterate_bitstep (by decide) c n

/-- Four bit steps bring a high nibble down unchanged. -/
theorem iterate_bitstep_shiftLeft_four (n : BitVec 4) : bitstep^[4] (n.setWidth 32 <<< 4) = n.setWidth 32 := by
  revert n
  decide

theorem setWidth_eq_xor_nibbles (d : Byte) :
    d.setWidth 32 = (d.extractLsb' 0 4).setWidth 32 ^^^ (d.extractLsb' 4 4).setWidth 32 <<< 4 := by
  refine BitVec.eq_of_getLsbD_eq fun i hi => ?_
  by_cases h4 : i < 4
  · simp [hi, h4]
  · have hsub : 4 + (i - 4) = i := by omega
    by_cases h8 : i < 8
    · simp [hi, h4, hsub, show i - 4 < 4 by omega]
    · simp [hi, h4, BitVec.getLsbD_of_ge d i (by omega), show ¬i - 4 < 4 by omega]

theorem bytestepSmall_eq_bytestep (c : Word) (d : Byte) : bytestepSmall c d = bytestep c d := by
  rw [bytestepSmall, nibblestep_eq_iterate_bitstep, nibblestep_eq_iterate_bitstep]
  calc
    _ = bitstep^[4] (bitstep^[4] (c ^^^ (d.extractLsb' 0 4).setWidth 32) ^^^
          bitstep^[4] ((d.extractLsb' 4 4).setWidth 32 <<< 4)) := by rw [iterate_bitstep_shiftLeft_four]
    _ = bitstep^[4] (bitstep^[4] (c ^^^ d.setWidth 32)) := by
      rw [← iterate_bitstep_xor, BitVec.xor_assoc, ← setWidth_eq_xor_nibbles]
    _ = bytestep c d := rfl

/-- Settles O15: both table ways are bit steps with the low bits looked up. -/
theorem bytestepWaysAgree : Obligations.BytestepWaysAgree := by
  intro v c d
  refine ⟨?_, rfl⟩
  cases v with
  | bitwise => rfl
  | small16 => exact bytestepSmall_eq_bytestep c d
  | large256 => exact bytestepLarge_eq_bytestep c d

/-- Settles O16: the definition of the table, and its sixteen entries by evaluation. -/
theorem smallTableEntries : Obligations.SmallTableEntries := ⟨fun _ => rfl, by decide⟩

/-- Settles O17: bit steps bring a high nibble down, so the large table holds the small one; the entries by evaluation. -/
theorem largeTableEntries : Obligations.LargeTableEntries := by
  refine ⟨fun _ => rfl, fun n => ?_, by decide, by decide, by decide, by decide⟩
  have hwide : (n.setWidth 8 <<< 4).setWidth 32 = n.setWidth 32 <<< 4 := by
    revert n
    decide
  calc t256 (n.setWidth 8 <<< 4)
      = bitstep^[4] (bitstep^[4] (n.setWidth 32 <<< 4)) := by rw [← hwide]; rfl
    _ = t16 n := by rw [iterate_bitstep_shiftLeft_four]; rfl

end Sys2Proof.Machine

/-! # Proofs of the checksum family: CRCU on parts of a buffer -/

namespace Sys2Proof.Machine

/-! ### The checksum of a run of bytes -/

@[simp] theorem condition_condition (v : Word) : condition (condition v) = v := by
  rw [condition, condition, BitVec.xor_assoc, BitVec.xor_self, BitVec.xor_zero]

theorem checksum_nil (acc : Word) : checksum acc [] = acc := condition_condition acc

/-- The checksum of a run is an accumulator for the run that follows (42_crc32c_core.md R129). -/
theorem checksum_append (acc : Word) (ds es : List Byte) : checksum acc (ds ++ es) = checksum (checksum acc ds) es := by
  rw [checksum, checksum, checksum, condition_condition, crcAfter, crcAfter, crcAfter, List.foldl_append]

theorem checksum_allOnes_zeros (n : Nat) : checksum 0xFFFFFFFF#32 (List.replicate n 0#8) = 0xFFFFFFFF#32 := by
  have hstep : checksum 0xFFFFFFFF#32 [0#8] = 0xFFFFFFFF#32 := by decide
  induction n with
  | zero => exact checksum_nil _
  | succ n ih => rw [List.replicate_succ, ← List.singleton_append, checksum_append, hstep, ih]

theorem bytesAt_add (m : Memory) (base n k : Nat) :
    bytesAt m base (n + k) = bytesAt m base n ++ bytesAt m (byteAddress base n) k := by
  simp [bytesAt, List.range_add, byteAddress, Nat.add_assoc, Function.comp_def]

theorem bytesAt_eq_replicate {m : Memory} {base n : Nat} {d : Byte} (h : ∀ k < n, memRead m (byteAddress base k) = d) :
    bytesAt m base n = List.replicate n d := by
  rw [List.eq_replicate_iff]
  simpa [bytesAt] using h

/-! ### CRCU -/

/-- Settles O18, from the closed form of CRCU. -/
theorem crcuReturnsTheChecksum : Obligations.CrcuReturnsTheChecksum := by
  intro accIn size inp s h
  exact ⟨_, execCrcu_of_canStart accIn h, rfl, rfl, rfl, rfl, rfl, rfl, sameBut_setCrcu s _, fun _ => rfl⟩

/-- What CRCU leaves in its result register, for a buffer whose checksum is known. -/
theorem exec_crcu_accOut {accIn v : Word} {size inp : Nat} {s : State} (h : canStart .crcu inp size s = true)
    (hsum : checksum accIn (bytesAt s.mem inp size) = v) :
    ∃ t, exec (.crcu accIn size inp) s = .next t ∧ t.crcu.accOut = some v :=
  ⟨_, execCrcu_of_canStart accIn h, congrArg some hsum⟩

/-- A unit that can be started on a buffer can be started on any part of it. -/
theorem canStart_part {u : UnitId} {base n base' n' : Nat} {s : State} (h : canStart u base n s = true)
    (hbase : base ≤ base') (hend : base' + n' ≤ base + n) : canStart u base' n' s = true := by
  rw [canStart_iff, ← Bool.not_eq_true (clashes _ _ _ _), clashes_iff] at h ⊢
  obtain ⟨hidle, hfree⟩ := h
  refine ⟨hidle, ?_⟩
  rintro ⟨w, hw, hbusy, hover⟩
  refine hfree ⟨w, hw, hbusy, ?_⟩
  rw [← Bool.not_eq_false] at hover ⊢
  exact fun hdisjoint => hover (overlap_part hdisjoint hbase hend)

/-- After the end of its own operation a unit can be started where it could before. -/
theorem canStart_of_sameBut_self {u : UnitId} {base n : Nat} {s t : State} (hsame : sameBut u s t)
    (hidle : busyOf u t = false) (h : canStart u base n s = true) : canStart u base n t = true := by
  obtain ⟨-, hfree⟩ := canStart_iff.mp h
  exact canStart_iff.mpr ⟨hidle, (hsame.clashes base n).trans hfree⟩

/-- Settles O19: the checksum of the first part is the accumulator of the second. -/
theorem crcuUpdatesCompose : Obligations.CrcuUpdatesCompose := by
  intro accIn m n inp s h hn
  have hfirst : canStart .crcu inp n s = true := canStart_part h le_rfl (by omega)
  have hrest : canStart .crcu (byteAddress inp n) (m - n) s = true :=
    canStart_part h (Nat.le_add_right inp n) (by rw [byteAddress]; omega)
  obtain ⟨t1, hexec1, hout1, -, hidle1, -, -, -, hsame1, hmem1⟩ := crcuReturnsTheChecksum accIn n inp s hfirst
  obtain ⟨t2, hexec2, hout2⟩ := exec_crcu_accOut (accIn := checksum accIn (bytesAt s.mem inp n))
    (canStart_of_sameBut_self hsame1 hidle1 hrest) rfl
  obtain ⟨t, hexec, hout⟩ := exec_crcu_accOut (accIn := accIn) h rfl
  refine ⟨t1, _, t2, t, hexec1, hout1, hexec2, hexec, ?_⟩
  rw [hout2, hout, bytesAt_congr fun k _ => hmem1 _, ← checksum_append, ← bytesAt_add, Nat.add_sub_cancel' hn]

/-- Settles O20: the checksums of no byte and of zero bytes. -/
theorem crcuCornerCases : Obligations.CrcuCornerCases := by
  refine ⟨fun accIn inp s h => ?_, fun n inp s h hzero => ?_⟩
  · exact ⟨_, execCrcu_of_canStart accIn h, congrArg some (checksum_nil accIn), rfl⟩
  · have hbytes := bytesAt_eq_replicate hzero
    refine ⟨exec_crcu_accOut h ?_, fun hn => exec_crcu_accOut h ?_, fun hn => exec_crcu_accOut h ?_⟩
    · rw [hbytes, checksum_allOnes_zeros]
    · rw [hbytes, hn]
      decide
    · rw [hbytes, hn]
      decide

/-- Settles O22: the checksum of the nine bytes, by evaluation. -/
theorem crcuCheckValue : Obligations.CrcuCheckValue := by
  intro inp s h hbytes
  refine exec_crcu_accOut h ?_
  rw [hbytes]
  decide +kernel

end Sys2Proof.Machine

/-! # Proofs of the ring multiplication family: CRCM's result and the laws of the ring product -/

namespace Sys2Proof.Machine

open Polynomial

/-! ### Nothing is lost in the wide product and its reduction (43_crc32c_ring_multiply.md R141 to R143) -/

/-- The partial product of bit `n` ends below bit `32 + n`. -/
theorem toNat_clmulUpTo_lt (a b : Word) (n : Nat) : (clmulUpTo a b n).toNat < 2 ^ (31 + n) := by
  induction n with
  | zero => exact Nat.two_pow_pos 31
  | succ n ih =>
    rw [clmulUpTo, BitVec.toNat_xor]
    refine Nat.xor_lt_two_pow (ih.trans (Nat.pow_lt_pow_succ Nat.one_lt_two)) ?_
    split
    · calc (a.setWidth 64 <<< n : Wide).toNat
          ≤ (a.setWidth 64 : Wide).toNat <<< n := (BitVec.toNat_shiftLeft ..).trans_le (Nat.mod_le _ _)
        _ = a.toNat * 2 ^ n := by rw [BitVec.toNat_setWidth_of_le (by decide), Nat.shiftLeft_eq]
        _ < 2 ^ 32 * 2 ^ n := Nat.mul_lt_mul_of_pos_right a.isLt (Nat.two_pow_pos n)
        _ = 2 ^ (31 + (n + 1)) := by rw [← Nat.pow_add, Nat.succ_add_eq_add_succ]
    · exact Nat.two_pow_pos _

/-- The reduced wide product is the ring product: its high word is zero. -/
theorem reduce_wideProduct (a b : Word) : reduce (wideProduct a b) = (ringProduct a b).setWidth 64 := by
  rw [ringProduct_eq_ringSum]
  exact iterate_reduceStep_clmulUpTo a b le_rfl

/-- Settles O23: CRCM on an idle unit, and the bounds on the product and its reduction. -/
theorem crcmReturnsTheRingProduct : Obligations.CrcmReturnsTheRingProduct := by
  intro a b s h
  refine ⟨execCrcm_of_idle a b h, ?_, toNat_clmulUpTo_lt a b 32⟩
  rw [reduce_wideProduct, BitVec.toNat_setWidth_of_le (by decide)]
  exact (ringProduct a b).isLt

/-- Settles O24: a step of any variant is as many bit steps, and the variants make 32 of them in all. -/
theorem reduceWaysAgree : Obligations.ReduceWaysAgree := reduceBy_eq_reduce

/-! ### Words are residues -/

/-- The coefficient of `x^(31-j)` is bit `j` (30_encoding.md R70). -/
theorem coeff_polynomialOf (v : Word) {j : ℕ} (hj : j < 32) :
    (polynomialOf v).coeff (31 - j) = if v.getLsbD j then 1 else 0 := by
  rw [polynomialOf, finsetSum_coeff, Finset.sum_eq_single_of_mem j (Finset.mem_range.mpr hj)]
  · split
    · exact coeff_X_pow_self _
    · exact coeff_zero _
  · intro i hi hne
    have hpower : 31 - j ≠ 31 - i := by have := Finset.mem_range.mp hi; omega
    split
    · rw [coeff_X_pow, if_neg hpower]
    · exact coeff_zero _

theorem polynomialOf_injective : Function.Injective polynomialOf := by
  intro v w h
  refine BitVec.eq_of_getLsbD_eq fun j hj => ?_
  have hcoeff := congrArg (coeff · (31 - j)) h
  simp only [coeff_polynomialOf _ hj] at hcoeff
  cases hv : v.getLsbD j <;> cases hw : w.getLsbD j <;> simp [hv, hw] at hcoeff ⊢

theorem polynomialOf_modByMonic (v : Word) : polynomialOf v %ₘ generator = polynomialOf v := by
  rw [modByMonic_eq_self_iff generator_monic, degree_generator]
  exact degree_polynomialOf_lt v

/-- A residue stands for one word: the polynomials of words have degree below the generator's. -/
theorem residue_injective : Function.Injective residue := by
  intro v w h
  have hmod := modByMonic_eq_of_dvd_sub generator_monic (AdjoinRoot.mk_eq_mk.mp h)
  rw [polynomialOf_modByMonic, polynomialOf_modByMonic] at hmod
  exact polynomialOf_injective hmod

/-! ### The laws of the ring (R145) -/

theorem ringProduct_comm (a b : Word) : ringProduct a b = ringProduct b a :=
  residue_injective <| by rw [residue_ringProduct, residue_ringProduct, mul_comm]

theorem ringProduct_assoc (a b c : Word) : ringProduct (ringProduct a b) c = ringProduct a (ringProduct b c) :=
  residue_injective <| by simp only [residue_ringProduct, mul_assoc]

theorem ringProduct_xor (a b c : Word) : ringProduct (a ^^^ c) b = ringProduct a b ^^^ ringProduct c b :=
  residue_injective <| by simp only [residue_ringProduct, residue_xor, add_mul]

/-- `0xC0000000` is `1 + x` and a bit step keeps `0xFCA42DAF`, so the two summands of the product cancel. -/
theorem ringProduct_zeroDivisors : ringProduct 0xC0000000#32 0xFCA42DAF#32 = 0#32 := by
  have hsum : 0xC0000000#32 = 0x80000000#32 ^^^ 0x40000000#32 := by decide
  have hfixed : bitstep 0xFCA42DAF#32 = 0xFCA42DAF#32 := by decide
  rw [hsum, ringProduct_xor, ringProduct_one, ringProduct_x, hfixed, BitVec.xor_self]

/-- Settles O27: the laws hold of residues, which stand for one word each. -/
theorem ringLaws : Obligations.RingLaws := ⟨ringProduct_comm, ringProduct_assoc, ringProduct_xor, ringProduct_zeroDivisors⟩

/-! ### Zero bytes (R148) -/

theorem ringProduct_iterate_bitstep (n : Nat) (a b : Word) :
    ringProduct (bitstep^[n] a) b = bitstep^[n] (ringProduct a b) :=
  Function.Semiconj.iterate_right (f := (ringProduct · b)) (ringProduct_bitstep · b) n a

/-- A zero byte multiplies the working value by `x^8` (42_crc32c_core.md R124). -/
theorem bytestep_zero (c : Word) : bytestep c 0#8 = ringProduct c 0x00800000#32 := by
  have hpower : 0x00800000#32 = bitstep^[8] 0x80000000#32 := by decide
  rw [ringProduct_comm, hpower, ringProduct_iterate_bitstep, ringProduct_one, bytestep, bytestepBitwise,
    BitVec.setWidth_zero, BitVec.xor_zero]

theorem crcAfter_zeros (c : Word) (n : Nat) :
    crcAfter c (List.replicate n 0#8) = ringProduct c (zeroBytesFactor n) := by
  induction n with
  | zero => exact ((ringProduct_comm c _).trans (ringProduct_one c)).symm
  | succ n ih =>
    rw [List.replicate_succ', crcAfter_append_byte, ih, bytestep_zero, ringProduct_assoc, zeroBytesFactor]

/-- Settles O28: each zero byte is one factor `x^8`. -/
theorem zeroBytesByRingMultiplication : Obligations.ZeroBytesByRingMultiplication := by
  intro accIn n inp s h hzero
  refine exec_crcu_accOut h ?_
  rw [checksum, bytesAt_eq_replicate hzero, crcAfter_zeros]

end Sys2Proof.Machine

/-! # Proofs of the exceptions family: START on a busy unit, and the end of a run with no move pending -/

namespace Sys2Proof.Machine

/-! ### START on a busy unit -/

theorem beginOp_of_busy {u : UnitId} {s : State} (h : busyOf u s = true) (base n : Nat) (started : State) :
    beginOp u base n s started = .refused (.startWhileBusy u) :=
  if_pos h

/-- A whole operation goes no further than its START, which a busy unit refuses (60_exceptions.md R181). -/
theorem andThen_beginOp_of_busy {u : UnitId} {s : State} (h : busyOf u s = true) (base n : Nat) (started : State)
    (f : State → Result) : andThen (beginOp u base n s started) f = .refused (.startWhileBusy u) := by
  rw [beginOp_of_busy h, andThen_refused]

/-- Settles O34: each operation a START event names begins with the START of its unit. -/
theorem startOnBusyUnitIsRefused : Obligations.StartOnBusyUnitIsRefused := by
  intro e s
  unfold decodeStart
  split <;> exact fun hbusy => ⟨beginOp_of_busy hbusy .., andThen_beginOp_of_busy hbusy ..⟩

/-! ### The steps left to a unit (R94, R106, R130, R147) -/

/-- A bound on the steps left to the unit's operation, its DONE or its error included (log 17): 0 when idle. -/
def VencUnit.stepsLeft (r : VencUnit) : Nat := if r.busy then canonicalLength r.value - r.i + 1 else 0
@[inherit_doc VencUnit.stepsLeft]
def VdecUnit.stepsLeft (r : VdecUnit) : Nat := if r.busy then r.size - r.i + 1 else 0
@[inherit_doc VencUnit.stepsLeft]
def CrcuUnit.stepsLeft (r : CrcuUnit) : Nat := if r.busy then r.size - r.i + 1 else 0
@[inherit_doc VencUnit.stepsLeft]
def CrcmUnit.stepsLeft (r : CrcmUnit) : Nat := if r.busy then r.k.toNat + 1 else 0

/-- The bound on the steps left, by unit. -/
def stepsLeft (u : UnitId) (s : State) : Nat :=
  match u with
  | .venc => s.venc.stepsLeft
  | .vdec => s.vdec.stepsLeft
  | .crcu => s.crcu.stepsLeft
  | .crcm => s.crcm.stepsLeft

theorem stepsLeft_of_idle {u : UnitId} {s : State} (h : busyOf u s = false) : stepsLeft u s = 0 := by
  cases u <;> exact if_neg (Bool.eq_false_iff.mp h)

theorem stepsLeft_venc {s : State} (h : s.venc.busy = true) :
    stepsLeft .venc s = canonicalLength s.venc.value - s.venc.i + 1 := if_pos h

theorem stepsLeft_vdec {s : State} (h : s.vdec.busy = true) : stepsLeft .vdec s = s.vdec.size - s.vdec.i + 1 := if_pos h

theorem stepsLeft_crcu {s : State} (h : s.crcu.busy = true) : stepsLeft .crcu s = s.crcu.size - s.crcu.i + 1 := if_pos h

theorem stepsLeft_crcm {s : State} (h : s.crcm.busy = true) : stepsLeft .crcm s = s.crcm.k.toNat + 1 := if_pos h

theorem stepsLeft_pos {u : UnitId} {s : State} (h : busyOf u s = true) : 0 < stepsLeft u s := by
  cases u
  · exact stepsLeft_venc h ▸ Nat.succ_pos _
  · exact stepsLeft_vdec h ▸ Nat.succ_pos _
  · exact stepsLeft_crcu h ▸ Nat.succ_pos _
  · exact stepsLeft_crcm h ▸ Nat.succ_pos _

theorem sameUnit.stepsLeft {u : UnitId} {s t : State} (h : sameUnit u s t) :
    Machine.stepsLeft u t = Machine.stepsLeft u s := by
  cases u
  · exact congrArg VencUnit.stepsLeft h
  · exact congrArg VdecUnit.stepsLeft h
  · exact congrArg CrcuUnit.stepsLeft h
  · exact congrArg CrcmUnit.stepsLeft h

/-- A reduction step takes bit steps off the count, which does not wrap. -/
theorem crcmReduceStep_k_lt {s : State} (h : CrcmInv s) (hbusy : s.crcm.busy = true) (hleft : s.crcm.k ≠ 0#6) :
    (crcmReduceStep s).crcm.k.toNat < s.crcm.k.toNat := by
  obtain ⟨-, hdvd⟩ := h.left hbusy
  have hpos : 0 < s.crcm.k.toNat := Nat.pos_of_ne_zero fun h0 => hleft (BitVec.eq_of_toNat_eq h0)
  change (s.crcm.k - BitVec.ofNat 6 Config.crcVariant.bitsPerStep).toNat < s.crcm.k.toNat
  rw [toNat_sub_bitsPerStep (Nat.le_of_dvd hpos hdvd)]
  exact Nat.sub_lt hpos (Nat.pos_of_dvd_of_pos hdvd hpos)

/-- A step of a unit in flight ends its operation or leaves it fewer steps. -/
theorem UnitStep.stepsLeft_lt {u : UnitId} {s t : State} (hstep : UnitStep u s t) (h : Machine.unitInv u s)
    (hbusy : Machine.busyOf u s = true) : stepsLeft u t < stepsLeft u s := by
  cases hstep with
  | idle hidle => cases hidle.symm.trans hbusy
  | vencDone | vdecDone | vdecCorrupt | vdecTruncated | crcuDone | crcmDone =>
    rw [stepsLeft_of_idle rfl]
    exact stepsLeft_pos hbusy
  | vencWrite _ hmore =>
    have hlt := VencInv.lt_canonicalLength h hbusy hmore
    rw [stepsLeft_venc hbusy, stepsLeft_venc (s := Machine.vencWrite s) hbusy]
    exact Nat.succ_lt_succ (Nat.sub_succ_lt_self _ _ hlt)
  | vdecContinue _ hdue =>
    rw [stepsLeft_vdec hbusy, stepsLeft_vdec (s := Machine.vdecContinue _ s) hbusy]
    exact Nat.succ_lt_succ (Nat.sub_succ_lt_self _ _ hdue)
  | crcuRead _ hdue =>
    rw [stepsLeft_crcu hbusy, stepsLeft_crcu (s := Machine.crcuRead s) hbusy]
    exact Nat.succ_lt_succ (Nat.sub_succ_lt_self _ _ hdue)
  | crcmReduce _ hleft =>
    rw [stepsLeft_crcm hbusy, stepsLeft_crcm (s := crcmReduceStep s) hbusy]
    exact Nat.succ_lt_succ (crcmReduceStep_k_lt h hbusy hleft)

/-! ### The steps left to the machine -/

/-- A bound on the steps left to all units together. -/
def totalStepsLeft (s : State) : Nat := (allUnits.map (stepsLeft · s)).sum

theorem totalStepsLeft_pos {u : UnitId} {s : State} (h : busyOf u s = true) : 0 < totalStepsLeft s :=
  (stepsLeft_pos h).trans_le (List.le_sum_of_mem (List.mem_map_of_mem (mem_allUnits u)))

theorem UnitStep.totalStepsLeft_lt {u : UnitId} {s t : State} (hstep : UnitStep u s t) (h : Invariant s)
    (hbusy : Machine.busyOf u s = true) : totalStepsLeft t < totalStepsLeft s := by
  have hlt := hstep.stepsLeft_lt (h.unit u) hbusy
  refine List.sum_lt_sum _ _ (fun w _ => ?_) ⟨u, mem_allUnits u, hlt⟩
  by_cases hw : w = u
  · exact hw ▸ hlt.le
  · exact (hstep.sameBut.unit hw).stepsLeft.le

theorem stepsLeft_venc_le (s : State) : stepsLeft .venc s ≤ 6 := by
  cases hbusy : s.venc.busy
  · simp [stepsLeft_of_idle (u := .venc) hbusy]
  · have hlen := canonicalLength_le_five s.venc.value
    rw [stepsLeft_venc hbusy]
    omega

theorem stepsLeft_vdec_le (s : State) : stepsLeft .vdec s ≤ s.vdec.size + 1 := by
  cases hbusy : s.vdec.busy
  · simp [stepsLeft_of_idle (u := .vdec) hbusy]
  · rw [stepsLeft_vdec hbusy]
    omega

theorem stepsLeft_crcu_le (s : State) : stepsLeft .crcu s ≤ s.crcu.size + 1 := by
  cases hbusy : s.crcu.busy
  · simp [stepsLeft_of_idle (u := .crcu) hbusy]
  · rw [stepsLeft_crcu hbusy]
    omega

theorem stepsLeft_crcm_le {s : State} (h : CrcmInv s) : stepsLeft .crcm s ≤ 33 := by
  cases hbusy : s.crcm.busy
  · simp [stepsLeft_of_idle (u := .crcm) hbusy]
  · obtain ⟨hk, -⟩ := h.left hbusy
    rw [stepsLeft_crcm hbusy]
    omega

theorem totalStepsLeft_le {s : State} (h : CrcmInv s) :
    totalStepsLeft s ≤ 6 + (s.vdec.size + 1) + (s.crcu.size + 1) + 33 := by
  have hvenc := stepsLeft_venc_le s
  have hvdec := stepsLeft_vdec_le s
  have hcrcu := stepsLeft_crcu_le s
  have hcrcm := stepsLeft_crcm_le h
  simp only [totalStepsLeft, allUnits, List.map_cons, List.map_nil, List.sum_cons, List.sum_nil]
  omega

/-! ### A run with no move pending -/

/-- With no move pending a unit in flight steps, or the run has ended (R185). -/
theorem step_of_busy_or_runEnded {s : State} (h : s.agenda = []) :
    (∃ u, busyOf u s = true ∧ step s = tick u s) ∨ runEnded s = true := by
  cases hfirst : firstBusy s with
  | some u => exact .inl ⟨u, List.find?_some (p := fun w => busyOf w s) hfirst, by simp [step, fetch, h, hfirst, tick]⟩
  | none =>
    have hidle := List.find?_eq_none.mp hfirst
    exact .inr (by simpa [runEnded, h] using hidle)

/-- The step of a unit in flight has a next state, or is the capacity violation of VENC (R163). -/
theorem tick_next_or_capacityViolation (u : UnitId) (s : State) :
    (∃ t, tick u s = .next t ∧ UnitStep u s t) ∨ ∃ t, tick u s = .fault (.capacityViolation t) := by
  refine (tick_cases u s).imp_right ?_
  rintro ⟨rfl, hfull, hnone⟩
  have hbusy : s.venc.busy = true := by
    by_contra hidle
    exact hnone s (tick_idle (Bool.eq_false_iff.mpr hidle))
  have hmore : ¬(0 < s.venc.i ∧ s.venc.word = 0#32) := fun hdone => hnone _ (tick_vencDone hbusy hdone)
  exact ⟨_, tick_vencFull hbusy hmore hfull⟩

theorem run_of_next {s t : State} (h : step s = .next t) (n : Nat) :
    Sys2Proof.core.run (n + 1) s = Sys2Proof.core.run n t := by
  have hstep : Sys2Proof.core.step s = .next t := h
  simp only [Host.Core.run, hstep]

theorem run_of_fault {s : State} {e : Fault} (h : step s = .fault e) (n : Nat) :
    Sys2Proof.core.run (n + 1) s = .fault e := by
  have hstep : Sys2Proof.core.step s = .fault e := h
  simp only [Host.Core.run, hstep]

/-- After `n` steps the run has ended, or it has met the capacity violation by then. -/
def runEndsIn (n : Nat) (s : State) : Prop :=
  (∃ t, Sys2Proof.core.run n s = .next t ∧ runEnded t = true) ∨ ∃ t, Sys2Proof.core.run n s = .fault (.capacityViolation t)

theorem runEndsIn_succ {n : Nat} {s t : State} (hstep : step s = .next t) (h : runEndsIn n t) : runEndsIn (n + 1) s := by
  rwa [runEndsIn, run_of_next hstep]

/-- The run ends within the steps left: each step of a unit in flight takes at least one off them. -/
theorem exists_runEndsIn (s : State) (h : Invariant s) (hagenda : s.agenda = []) :
    ∃ n ≤ totalStepsLeft s, runEndsIn n s := by
  obtain ⟨u, hbusy, hstep⟩ | hended := step_of_busy_or_runEnded hagenda
  · obtain ⟨t, htick, hunit⟩ | ⟨t, hfault⟩ := tick_next_or_capacityViolation u s
    · have hlt := hunit.totalStepsLeft_lt h hbusy
      obtain ⟨n, hn, hends⟩ := exists_runEndsIn t (unitStep_keeps_invariant h hunit) (hunit.sameBut.agenda.trans hagenda)
      exact ⟨n + 1, hn.trans_lt hlt, runEndsIn_succ (hstep.trans htick) hends⟩
    · exact ⟨1, totalStepsLeft_pos hbusy, .inr ⟨t, run_of_fault (hstep.trans hfault) 0⟩⟩
  · exact ⟨0, Nat.zero_le _, .inl ⟨s, rfl, hended⟩⟩
termination_by totalStepsLeft s

/-- Settles O48: the steps left bound the run, and their sum over the units bounds the steps left. -/
theorem everyRunEnds : Obligations.EveryRunEnds := by
  intro s h hagenda
  obtain ⟨n, hn, hends⟩ := exists_runEndsIn s h hagenda
  exact ⟨n, hn.trans (totalStepsLeft_le h.crcm), hends⟩

end Sys2Proof.Machine

/-! # Proofs of the reset and hazards family: the step with no move pending -/

namespace Sys2Proof.Machine

/-- With no move pending and no unit in flight nothing runs (R190). -/
theorem step_of_all_idle {s : State} (hagenda : s.agenda = []) (hidle : ∀ u, busyOf u s = false) : step s = .next s := by
  have hnone : firstBusy s = none := List.find?_eq_none.mpr fun u _ => Bool.eq_false_iff.mp (hidle u)
  simp [step, fetch, hagenda, hnone, perform]

/-- With no move pending a unit in flight steps if those before it in the order of the units are idle (log 6). -/
theorem step_of_busy_after_idle {s : State} {u : UnitId} {before after : List UnitId} (hagenda : s.agenda = [])
    (horder : allUnits = before ++ u :: after) (hbefore : ∀ w ∈ before, busyOf w s = false) (hbusy : busyOf u s = true) :
    step s = tick u s := by
  have hfirst : firstBusy s = some u :=
    List.find?_eq_some_iff_append.mpr ⟨hbusy, before, after, horder, fun w hw => by simp [hbefore w hw]⟩
  simp [step, fetch, hagenda, hfirst, tick]

/-- Settles O38: all units idle, or each unit in turn as the first in flight. -/
theorem stepWithNothingPending : Obligations.StepWithNothingPending := by
  intro s hagenda
  refine ⟨step_of_all_idle hagenda, fun hvenc => ?_, fun hvenc hvdec => ?_, fun hvenc hvdec hcrcu => ?_,
    fun hvenc hvdec hcrcu hcrcm => ?_⟩
  · exact step_of_busy_after_idle (before := []) hagenda rfl (by simp) hvenc
  · exact step_of_busy_after_idle (before := [.venc]) hagenda rfl (by simp [busyOf, hvenc]) hvdec
  · exact step_of_busy_after_idle (before := [.venc, .vdec]) hagenda rfl (by simp [busyOf, hvenc, hvdec]) hcrcu
  · exact step_of_busy_after_idle (before := [.venc, .vdec, .crcu]) hagenda rfl
      (by simp [busyOf, hvenc, hvdec, hcrcu]) hcrcm

end Sys2Proof.Machine
